-- ==== Sys2Proof/Word.lean ====
section
/-! DEFINITION. The two value types of the CORE (`10_state.md` rule R66): a byte is 8 bits, a register word is
32 bits, both unsigned (`00_scope.md` rule R18). -/

namespace Sys2Proof

/-- A byte, 0..255 (R66). -/
abbrev Byte := BitVec 8

/-- A 32-bit register word (R33, R66). -/
abbrev Word := BitVec 32

end Sys2Proof
end

