-- ==== Sys2Proof/Syntax.lean ====
section
/-! DEFINITION. The eight commands of `30_encoding.md` rule R112, one constructor per row of
`spec/opcode_table.json`. A command word has no register field and no immediate (R111), so no constructor has an
argument. -/

namespace Sys2Proof

/-- A command of the CORE, its analogue of an instruction (`00_scope.md` rule R4). -/
inductive Instr where
  /-- NOP, word 0x0000_0000 (R270). -/
  | nop
  /-- AES_KEYEXP, word 0x0000_0001 (R181). -/
  | aesKeyexp
  /-- AES_ENC, word 0x0000_0002 (R185). -/
  | aesEnc
  /-- AES_DEC, word 0x0000_0003 (R190). -/
  | aesDec
  /-- MODMUL, word 0x0000_0010 (R246). -/
  | modmul
  /-- MODEXP, word 0x0000_0011 (R247). -/
  | modexp
  /-- MR_ROUND, word 0x0000_0020 (R215). -/
  | mrRound
  /-- MR_TEST, word 0x0000_0021 (R219). -/
  | mrTest
  deriving DecidableEq, Repr

end Sys2Proof
end

