-- ==== Sys2Proof/WellFormed.lean ====
section
/-! DEFINITION. Well-formedness of a command and of a command word. A command has no operand (R111), so every
command is well formed; what can be ill formed is the word a host writes to `CMD` (R113). -/

namespace Sys2Proof

/-- Every command is well formed: no operand field exists that could be out of range (R111). -/
def Instr.wellFormed : Instr → Bool
  | .nop => true
  | .aesKeyexp => true
  | .aesEnc => true
  | .aesDec => true
  | .modmul => true
  | .modexp => true
  | .mrRound => true
  | .mrTest => true

/-- The reserved bits [31:8] of a command word are 0 (R110, R113). -/
def reservedBitsZero (v : Word) : Bool := v.extractLsb' 8 24 == 0#24

/-- Bits [7:0] are an opcode of R112; every other value is reserved (R114). -/
def opcodeListed (v : Word) : Bool :=
  [0x00#8, 0x01#8, 0x02#8, 0x03#8, 0x10#8, 0x11#8, 0x20#8, 0x21#8].contains (v.extractLsb' 0 8)

/-- A legal command word: not illegal in the sense of R113. -/
def wordWellFormed (v : Word) : Bool := reservedBitsZero v && opcodeListed v

end Sys2Proof
end

