-- ==== Sys2Proof/Decode.lean ====
section
/-! DEFINITION. Decoding, total on every 32-bit command word (`30_encoding.md` rule R116), and the encoder written
from the table of R112. `none` is the spec's ILLEGAL: such a word still issues and completes, with
`ERR = ILLEGAL` (R113). -/

namespace Sys2Proof

/-- The field `OP`, bits [7:0] of a command word (R110). -/
def opField (v : Word) : Byte := v.extractLsb' 0 8

/-- The field `RSV`, bits [31:8] of a command word (R110). -/
def rsvField (v : Word) : BitVec 24 := v.extractLsb' 8 24

/-- The opcode map of R112; every other value of `OP` is reserved (R114). -/
def decodeOp (op : Byte) : Option Instr :=
  if op = 0x00#8 then some .nop
  else if op = 0x01#8 then some .aesKeyexp
  else if op = 0x02#8 then some .aesEnc
  else if op = 0x03#8 then some .aesDec
  else if op = 0x10#8 then some .modmul
  else if op = 0x11#8 then some .modexp
  else if op = 0x20#8 then some .mrRound
  else if op = 0x21#8 then some .mrTest
  else none

/-- `Decode(v)` of R116: the reserved bits are looked at first. -/
def decode (v : Word) : Option Instr :=
  if rsvField v ≠ 0#24 then none else decodeOp (opField v)

/-- The opcode of a command (R112). -/
def opcode : Instr → Byte
  | .nop => 0x00#8
  | .aesKeyexp => 0x01#8
  | .aesEnc => 0x02#8
  | .aesDec => 0x03#8
  | .modmul => 0x10#8
  | .modexp => 0x11#8
  | .mrRound => 0x20#8
  | .mrTest => 0x21#8

/-- The command word of a command: `RSV = 0`, `OP` its opcode (R110, R112). -/
def encode (i : Instr) : Word := 0#24 ++ opcode i

/-- The command the decoder reads from a table row's `nbits` bits `w` (bit 0 the least significant bit of the
word); bits above `nbits` are 0. A command word is exactly 32 bits (R117), so a longer value is none. -/
def decodeTableWord (nbits w : Nat) : Option Instr :=
  if w % 2 ^ nbits < 2 ^ 32 then decode (BitVec.ofNat 32 (w % 2 ^ nbits)) else none

end Sys2Proof
end

