-- ==== Sys2Proof/Config.lean ====
section
/-! DEFINITION. What an implementation or the platform fixes (`00_scope.md` section 4), and the free values: an
`opaque` constant has no body, so nothing can be proved of it beyond its type. -/

namespace Sys2Proof.Config

/-- The free choice behind `NW` (OPEN parameter `BIG_BITS`, R12; log entry 5). -/
opaque operandWordsChoice : Nat

/-- `NW = BIG_BITS / 32`: 32-bit words per big operand. R12 allows every `BIG_BITS` that is a multiple of 32 in
2048..32768, so `NW` is any number in 64..1024; nothing else is known of it. -/
def nw : Nat := operandWordsChoice % 961 + 64

/-- `BIG_BITS`, the width of the operand registers `A`, `B`, `E`, `N`, `R` (R12). -/
def bigBits : Nat := 32 * nw

/-- `MR_ROUNDS`, the rounds of the full Miller-Rabin test, fixed (R13). -/
def mrRounds : Nat := 128

/-- The free choice behind `CORE_BASE` (OPEN, R80; log entry 6). -/
opaque coreBaseChoice : Nat

/-- `CORE_BASE`: where the platform places the window, any multiple of 0x8000 (R80). -/
def coreBase : Nat := 0x8000 * coreBaseChoice

/-- The size of the register window, 24 KiB (R80). -/
def windowBytes : Nat := 0x6000

/-- `IRQ_ROUTE`: which input of the host's interrupt controller the `IRQ` line drives (OPEN, R340; log entry 15). -/
opaque irqRoute : Nat

/-- The k-th unspecified word a host read of a register under way returns (R62, "a draw, under no law"; log
entry 7). -/
opaque freeWord : Nat → Word

/-- The k-th number the entropy source gives, before it is brought into the range asked for (R220, R352; log
entry 8). -/
opaque entropy : Nat → Nat

end Sys2Proof.Config
end

