-- ==== Sys2Proof/Machine/State.lean ====
section
/-! DEFINITION. The state of the CORE (`10_state.md`), the types of its interface, and the state after reset (R64).
Every register of the map of R33 that is not a constant has its home in `CoreState`; the constants (`ID`, `PARAM`,
the three ROMs) are configuration, not state (R30). -/

namespace Sys2Proof.Machine

/-- One column of an AES State: the bytes of rows 0 to 3. -/
structure Col where
  r0 : Byte
  r1 : Byte
  r2 : Byte
  r3 : Byte
  deriving DecidableEq, Repr

/-- An AES State, "always exactly 4 rows × 4 columns" of bytes, held by columns (R66, R149). -/
structure AesState where
  c0 : Col
  c1 : Col
  c2 : Col
  c3 : Col
  deriving DecidableEq, Repr

/-- A bank of four 32-bit registers: `KEY0..KEY3`, `DIN0..DIN3` or `DOUT0..DOUT3` (R49, R52, R53). -/
structure Quad where
  w0 : Word
  w1 : Word
  w2 : Word
  w3 : Word
  deriving DecidableEq, Repr

/-- The error codes of a completed command (R46, R331); codes 5 to 15 are never produced. -/
inductive ErrCode where
  | ok
  | illegal
  | noKey
  | modZero
  | witness
  deriving DecidableEq, Repr

/-- The sequencer's phase (R58): idle, or executing the command word `v`. -/
inductive Phase where
  | idle
  | busy (v : Word)
  deriving DecidableEq, Repr

/-- The five big-operand registers (R50, R51). -/
inductive Operand where
  | A
  | B
  | E
  | N
  | R
  deriving DecidableEq, Repr

/-- The registers of the map of R33, by name; `k` of an operand word is below `NW` for a mapped register. -/
inductive Reg where
  | id
  | param
  | ctrl
  | status
  | cmd
  | key (i : Fin 4)
  | din (i : Fin 4)
  | dout (i : Fin 4)
  | rkw (j : Fin 44)
  | sboxw (j : Fin 64)
  | isboxw (j : Fin 64)
  | rconw (j : Fin 3)
  | operand (x : Operand) (k : Nat)
  deriving DecidableEq, Repr

/-- The state of the CORE: the registers of R33, the round-key RAM (R54) and the sequencer's phase (R58).
`STATUS.BUSY` is not stored: it is the phase (R59). `STATUS.ERR` is held as its code's name (R46). -/
structure CoreState where
  /-- The sequencer (R58). -/
  phase : Phase
  /-- `CTRL.IE` (R38). -/
  ie : Bool
  /-- `STATUS.DONE` (R42). -/
  done : Bool
  /-- `STATUS.KEYVALID` (R43). -/
  keyValid : Bool
  /-- `STATUS.PRIME` (R44). -/
  prime : Bool
  /-- `STATUS.WIGN` (R45). -/
  wign : Bool
  /-- `STATUS.ERR` (R46). -/
  err : ErrCode
  /-- `STATUS.LASTOP` (R47). -/
  lastop : Byte
  /-- `KEY0..KEY3` (R49). -/
  key : Quad
  /-- `DIN0..DIN3` (R52). -/
  din : Quad
  /-- `DOUT0..DOUT3` (R53). -/
  dout : Quad
  /-- The round-key RAM, `RK[0..10]` (R54). -/
  rk : Vector AesState 11
  /-- Operand `A`, a natural number below `2^BIG_BITS` (R50, R66). -/
  opA : Nat
  /-- Operand `B` (R50). -/
  opB : Nat
  /-- Operand `E` (R50). -/
  opE : Nat
  /-- Operand `N` (R50). -/
  opN : Nat
  /-- The result `R` (R51). -/
  opR : Nat
  deriving DecidableEq, Repr

/-- One access of the host (R103): an address, a width in bytes and, for a write, the word written (of an access of
another width than 4, which is only refused (R84), nothing else is looked at). -/
inductive Access where
  | read (addr width : Nat)
  | write (addr width : Nat) (v : Word)
  deriving DecidableEq, Repr

/-- What happens next, from outside the sequencer's own doing: a host access, a hardware reset (R370), or a turn
given to the sequencer before the next of them (log entry 1). -/
inductive Event where
  | host (a : Access)
  | hardwareReset
  | sequencer
  deriving DecidableEq, Repr

/-- What the CORE answers to a host access: the word read, the acknowledgement of a write, or an error response
(R85). -/
inductive Response where
  | data (w : Word)
  | ack
  | busError (off : Nat)
  deriving DecidableEq, Repr

/-- The whole machine: the CORE, and beside it four fields of the model's own (log entries 1, 7, 8 and 9). -/
structure State where
  /-- The CORE. -/
  core : CoreState
  /-- The pending events, the next one first; when none is pending the sequencer has the turn. -/
  events : List Event
  /-- The answer to the latest host access. -/
  response : Option Response
  /-- How many unspecified reads (R62) were answered; indexes `Config.freeWord`. -/
  busDraws : Nat
  /-- How many witnesses (R220) were drawn; indexes `Config.entropy`. -/
  entropyDraws : Nat
  deriving DecidableEq, Repr

/-- Why a step stops. -/
inductive Fault where
  /-- Raised by the bus (`hostAccess`) for an access whose address is not in the CORE window: it is no access to
  this hardware and the spec says nothing of it. Safe: the model stops where the platform goes on. -/
  | outsideWindow (addr : Nat)
  deriving DecidableEq, Repr

/-- Why a command has no meaning. -/
inductive Refusal where
  /-- Raised by `exec`'s arm of a command without a meaning (there is none left). Safe. -/
  | notModelled (mnemonic : String)
  deriving DecidableEq, Repr

/-- Four zero words. -/
def Quad.zero : Quad := ⟨0#32, 0#32, 0#32, 0#32⟩

/-- The column of four 0x00 bytes. -/
def Col.zero : Col := ⟨0#8, 0#8, 0#8, 0#8⟩

/-- The State of sixteen 0x00 bytes. -/
def AesState.zero : AesState := ⟨Col.zero, Col.zero, Col.zero, Col.zero⟩

/-- The CORE after a reset, soft or hardware: every piece of state at the value of R64. -/
def CoreState.reset : CoreState where
  phase := .idle
  ie := false
  done := false
  keyValid := false
  prime := false
  wign := false
  err := .ok
  lastop := 0x00#8
  key := Quad.zero
  din := Quad.zero
  dout := Quad.zero
  rk := Vector.replicate 11 AesState.zero
  opA := 0
  opB := 0
  opE := 0
  opN := 0
  opR := 0

/-- The machine right after a hardware reset (R64, R370): the CORE at its reset values, no access pending, none
answered, nothing drawn (the last four are the model's own fields, DESIGN CHOICE, log entry 9). -/
def State.reset : State where
  core := CoreState.reset
  events := []
  response := none
  busDraws := 0
  entropyDraws := 0

end Sys2Proof.Machine
end

