-- ==== Sys2Proof/Machine/AesDatapath.lean ====
section
/-! DEFINITION. The AES-128 datapath (`40_aes_datapath.md`): GF(2^8), the constant tables, the round transforms, the
key schedule, and the cipher and inverse cipher of one block. All are pure functions. -/

namespace Sys2Proof.Machine

/-! ### Arithmetic in GF(2^8) (R140, R141) -/

/-- Multiplication by `x`, that is by 0x02, modulo 0x11B (R141). -/
def xtime (b : Byte) : Byte := if b.getLsbD 7 then (b <<< 1) ^^^ 0x1B#8 else b <<< 1

/-- The loop of `gmul` (R141): `n` bits of `b` are left, `p` is the sum so far. -/
def gmulLoop : Nat → Byte → Byte → Byte → Byte
  | 0, _, _, p => p
  | n + 1, a, b, p => gmulLoop n (xtime a) (b >>> 1) (if b.getLsbD 0 then p ^^^ a else p)

/-- Multiplication in GF(2^8) with reduction polynomial 0x11B (R141). -/
def gmul (a b : Byte) : Byte := gmulLoop 8 a b 0x00#8

/-! ### Constant tables (R142 to R146) -/

/-- The S-box ROM of R143, rows 0 to 7: each row's sixteen bytes, column 0 first, as one number. -/
def sboxRowsLow : List (BitVec 128) :=
  [0x637c777bf26b6fc53001672bfed7ab76#128,
   0xca82c97dfa5947f0add4a2af9ca472c0#128,
   0xb7fd9326363ff7cc34a5e5f171d83115#128,
   0x04c723c31896059a071280e2eb27b275#128,
   0x09832c1a1b6e5aa0523bd6b329e32f84#128,
   0x53d100ed20fcb15b6acbbe394a4c58cf#128,
   0xd0efaafb434d338545f9027f503c9fa8#128,
   0x51a3408f929d38f5bcb6da2110fff3d2#128]

/-- The S-box ROM of R143, rows 8 to F: each row's sixteen bytes, column 0 first, as one number. -/
def sboxRowsHigh : List (BitVec 128) :=
  [0xcd0c13ec5f974417c4a77e3d645d1973#128,
   0x60814fdc222a908846eeb814de5e0bdb#128,
   0xe0323a0a4906245cc2d3ac629195e479#128,
   0xe7c8376d8dd54ea96c56f4ea657aae08#128,
   0xba78252e1ca6b4c6e8dd741f4bbd8b8a#128,
   0x703eb5664803f60e613557b986c11d9e#128,
   0xe1f8981169d98e949b1e87e9ce5528df#128,
   0x8ca1890dbfe6426841992d0fb054bb16#128]

/-- The S-box ROM, row = high nibble (R143). -/
def sboxRows : List (BitVec 128) := sboxRowsLow ++ sboxRowsHigh

/-- The inverse S-box ROM of R144, rows 0 to 7: each row's sixteen bytes, column 0 first, as one number. -/
def isboxRowsLow : List (BitVec 128) :=
  [0x52096ad53036a538bf40a39e81f3d7fb#128,
   0x7ce339829b2fff87348e4344c4dee9cb#128,
   0x547b9432a6c2233dee4c950b42fac34e#128,
   0x082ea16628d924b2765ba2496d8bd125#128,
   0x72f8f66486689816d4a45ccc5d65b692#128,
   0x6c704850fdedb9da5e154657a78d9d84#128,
   0x90d8ab008cbcd30af7e45805b8b34506#128,
   0xd02c1e8fca3f0f02c1afbd0301138a6b#128]

/-- The inverse S-box ROM of R144, rows 8 to F: each row's sixteen bytes, column 0 first, as one number. -/
def isboxRowsHigh : List (BitVec 128) :=
  [0x3a9111414f67dcea97f2cfcef0b4e673#128,
   0x96ac7422e7ad3585e2f937e81c75df6e#128,
   0x47f11a711d29c5896fb7620eaa18be1b#128,
   0xfc563e4bc6d279209adbc0fe78cd5af4#128,
   0x1fdda8338807c731b11210592780ec5f#128,
   0x60517fa919b54a0d2de57a9f93c99cef#128,
   0xa0e03b4dae2af5b0c8ebbb3c83539961#128,
   0x172b047eba77d626e169146355210c7d#128]

/-- The inverse S-box ROM, row = high nibble (R144). -/
def isboxRows : List (BitVec 128) := isboxRowsLow ++ isboxRowsHigh

/-- Entry `x` of a 256-entry table of rows: row `x[7:4]`, column `x[3:0]` (R143, R144). -/
def tableEntry (rows : List (BitVec 128)) (x : Byte) : Byte :=
  (rows.getD (x.toNat / 16) 0#128).extractLsb' (8 * (15 - x.toNat % 16)) 8

/-- `SBOX[x]` (R143). -/
def sbox (x : Byte) : Byte := tableEntry sboxRows x

/-- `ISBOX[y]` (R144). -/
def isbox (y : Byte) : Byte := tableEntry isboxRows y

/-- The round constants `RCON[0..9]` (R146). -/
def rconTable : List Byte :=
  [0x01#8, 0x02#8, 0x04#8, 0x08#8, 0x10#8, 0x20#8, 0x40#8, 0x80#8, 0x1B#8, 0x36#8]

/-- `RCON[i]`; 0x00 past the tenth, as the last two bytes of the ROM read (R57, R146). -/
def rcon (i : Nat) : Byte := rconTable.getD i 0x00#8

/-! ### The State: rows and columns (R66, R149) -/

/-- Row `r` of a column. -/
def Col.get (c : Col) (r : Fin 4) : Byte :=
  match r with
  | 0 => c.r0
  | 1 => c.r1
  | 2 => c.r2
  | 3 => c.r3

/-- Column `c` of a State. -/
def AesState.col (s : AesState) (c : Fin 4) : Col :=
  match c with
  | 0 => s.c0
  | 1 => s.c1
  | 2 => s.c2
  | 3 => s.c3

/-- `S[r][c]` (R21). -/
def AesState.at (s : AesState) (r c : Fin 4) : Byte := (s.col c).get r

/-- The State with `S[r][c] = f r c`. -/
def AesState.ofFn (f : Fin 4 → Fin 4 → Byte) : AesState where
  c0 := ⟨f 0 0, f 1 0, f 2 0, f 3 0⟩
  c1 := ⟨f 0 1, f 1 1, f 2 1, f 3 1⟩
  c2 := ⟨f 0 2, f 1 2, f 2 2, f 3 2⟩
  c3 := ⟨f 0 3, f 1 3, f 2 3, f 3 3⟩

/-! ### Round transforms (R150 to R156) -/

/-- SubBytes: the S-box on every byte (R150). -/
def subBytes (s : AesState) : AesState := AesState.ofFn fun r c => sbox (s.at r c)

/-- InvSubBytes: the inverse S-box on every byte (R151). -/
def invSubBytes (s : AesState) : AesState := AesState.ofFn fun r c => isbox (s.at r c)

/-- ShiftRows: `S'[r][c] = S[r][(c + r) mod 4]` (R152); sums of `Fin 4` are modulo 4. -/
def shiftRows (s : AesState) : AesState := AesState.ofFn fun r c => s.at r (c + r)

/-- InvShiftRows: `S'[r][c] = S[r][(c - r) mod 4]` (R153). -/
def invShiftRows (s : AesState) : AesState := AesState.ofFn fun r c => s.at r (c - r)

/-- One row of a matrix times one column over GF(2^8) (R154). -/
def gdot (row col : Col) : Byte :=
  gmul row.r0 col.r0 ^^^ gmul row.r1 col.r1 ^^^ gmul row.r2 col.r2 ^^^ gmul row.r3 col.r3

/-- The rows of the MixColumns matrix `M` (R147). -/
def mixRow (r : Fin 4) : Col :=
  match r with
  | 0 => ⟨0x02#8, 0x03#8, 0x01#8, 0x01#8⟩
  | 1 => ⟨0x01#8, 0x02#8, 0x03#8, 0x01#8⟩
  | 2 => ⟨0x01#8, 0x01#8, 0x02#8, 0x03#8⟩
  | 3 => ⟨0x03#8, 0x01#8, 0x01#8, 0x02#8⟩

/-- The rows of the InvMixColumns matrix `M'` (R148). -/
def invMixRow (r : Fin 4) : Col :=
  match r with
  | 0 => ⟨0x0E#8, 0x0B#8, 0x0D#8, 0x09#8⟩
  | 1 => ⟨0x09#8, 0x0E#8, 0x0B#8, 0x0D#8⟩
  | 2 => ⟨0x0D#8, 0x09#8, 0x0E#8, 0x0B#8⟩
  | 3 => ⟨0x0B#8, 0x0D#8, 0x09#8, 0x0E#8⟩

/-- MixColumns: each column times `M` (R154). -/
def mixColumns (s : AesState) : AesState := AesState.ofFn fun r c => gdot (mixRow r) (s.col c)

/-- InvMixColumns: each column times `M'` (R155). -/
def invMixColumns (s : AesState) : AesState := AesState.ofFn fun r c => gdot (invMixRow r) (s.col c)

/-- AddRoundKey: XOR with a round key, byte by byte (R156). -/
def addRoundKey (s k : AesState) : AesState := AesState.ofFn fun r c => s.at r c ^^^ k.at r c

/-! ### Key schedule (R157) -/

/-- XOR of two columns, byte by byte. -/
def Col.xor (a b : Col) : Col := ⟨a.r0 ^^^ b.r0, a.r1 ^^^ b.r1, a.r2 ^^^ b.r2, a.r3 ^^^ b.r3⟩

/-- The temporary column `t` of one round of R157: the last column rotated up by one, substituted, its first byte
XORed with the round constant. -/
def scheduleTemp (last : Col) (rc : Byte) : Col := ⟨sbox last.r1 ^^^ rc, sbox last.r2, sbox last.r3, sbox last.r0⟩

/-- Round key `r` from round key `r - 1` (R157). -/
def nextRoundKey (p : AesState) (rc : Byte) : AesState :=
  let c0 := p.c0.xor (scheduleTemp p.c3 rc)
  let c1 := c0.xor p.c1
  let c2 := c1.xor p.c2
  let c3 := c2.xor p.c3
  ⟨c0, c1, c2, c3⟩

/-- `RK[r]` of a key given as a State (R157); round `r` uses `RCON[r-1]` (R146). -/
def roundKey (key : AesState) : Nat → AesState
  | 0 => key
  | r + 1 => nextRoundKey (roundKey key r) (rcon r)

/-- `KeyExpansion(key)`, the round keys `RK[0..10]` (R157). -/
def keyExpansion (key : AesState) : Vector AesState 11 := Vector.ofFn fun i => roundKey key i.val

/-! ### Cipher and inverse cipher (R158, R159) -/

/-- One of rounds 1 to 9 of `Cipher` (R158). -/
def cipherRound (s k : AesState) : AesState := addRoundKey (mixColumns (shiftRows (subBytes s))) k

/-- One of rounds 9 to 1 of `InvCipher` (R159). -/
def invCipherRound (s k : AesState) : AesState := invSubBytes (invShiftRows (invMixColumns (addRoundKey s k)))

/-- The numbers of the middle rounds, in the order of `Cipher`. -/
def middleRounds : List (Fin 11) := [1, 2, 3, 4, 5, 6, 7, 8, 9]

/-- `Cipher(in, RK)`: encrypts one block (R158). -/
def cipher (x : AesState) (rk : Vector AesState 11) : AesState :=
  let s := middleRounds.foldl (fun s r => cipherRound s rk[r]) (addRoundKey x rk[0])
  addRoundKey (shiftRows (subBytes s)) rk[10]

/-- `InvCipher(in, RK)`: decrypts one block (R159). -/
def invCipher (x : AesState) (rk : Vector AesState 11) : AesState :=
  let s := invSubBytes (invShiftRows (addRoundKey x rk[10]))
  addRoundKey (middleRounds.reverse.foldl (fun s r => invCipherRound s rk[r]) s) rk[0]

end Sys2Proof.Machine
end

