-- ==== Sys2Proof/Machine/Flags.lean ====
section
/-! DEFINITION. The words of the status and control registers (`10_state.md` rules R36 to R47), what a write to
them does, and the interrupt line (`60_exceptions.md` rule R340). -/

namespace Sys2Proof.Machine

/-- The code of an error (R46, R331). -/
def ErrCode.code : ErrCode → BitVec 4
  | .ok => 0#4
  | .illegal => 1#4
  | .noKey => 2#4
  | .modZero => 3#4
  | .witness => 4#4

/-- `STATUS.BUSY` is 1 exactly while the phase is `BUSY(v)` (R41, R59). -/
def CoreState.busy (c : CoreState) : Bool :=
  match c.phase with
  | .idle => false
  | .busy _ => true

/-- The word `STATUS` reads as: reserved bits 0, `LASTOP` [23:16], `ERR` [11:8], `WIGN` 4, `PRIME` 3, `KEYVALID` 2,
`DONE` 1, `BUSY` 0 (R35, R40). -/
def statusWord (c : CoreState) : Word :=
  0#8 ++ c.lastop ++ 0#4 ++ c.err.code ++ 0#3 ++ BitVec.ofBool c.wign ++ BitVec.ofBool c.prime
    ++ BitVec.ofBool c.keyValid ++ BitVec.ofBool c.done ++ BitVec.ofBool c.busy

/-- The word `CTRL` reads as: bit 0 `IE`; `SRST` and the reserved bits read 0 (R35, R38). -/
def ctrlWord (c : CoreState) : Word := 0#31 ++ BitVec.ofBool c.ie

/-- `ID`, the constant of R36. -/
def idWord : Word := 0x41455331#32

/-- `PARAM`: `NW` in [15:0], `MR_ROUNDS` in [23:16], [31:24] reserved (R37). -/
def paramWord : Word := 0#8 ++ BitVec.ofNat 8 Config.mrRounds ++ BitVec.ofNat 16 Config.nw

/-- A host write to `STATUS`, accepted whether idle or busy: it clears the W1C bits written as 1, `DONE` (1) and
`WIGN` (4), and nothing else (R34, R40). Writing 1 to `DONE` is the acknowledgement of a completion (R346). -/
def writeStatus (v : Word) (c : CoreState) : CoreState :=
  { c with done := c.done && !v.getLsbD 1, wign := c.wign && !v.getLsbD 4 }

/-- A host write to `CTRL`, accepted whether idle or busy: bit 1 set is a soft reset, which also discards a running
command (R39, R372); else bit 0 goes to `IE`. -/
def writeCtrl (v : Word) (c : CoreState) : CoreState :=
  if v.getLsbD 1 then CoreState.reset else { c with ie := v.getLsbD 0 }

/-- The interrupt line, a level: `IRQ = CTRL.IE and STATUS.DONE` at every moment (R340). -/
def irq (c : CoreState) : Bool := c.ie && c.done

/-- The input of the host's interrupt controller that the CORE asserts, if any (R340). -/
def irqInput (c : CoreState) : Option Nat := if irq c then some Config.irqRoute else none

end Sys2Proof.Machine
end

