-- ==== Sys2Proof/Machine/Operands.lean ====
section
/-! DEFINITION. Operand assembly (`30_encoding.md` rule R111): how the bytes of a block or key lie in four words
(R92), and how a big operand is made of 32-bit words (R50). -/

namespace Sys2Proof.Machine

/-! ### Bytes in words (R19, R92) -/

/-- `b0 ‖ b1 ‖ b2 ‖ b3`, the word `b0*2^24 + b1*2^16 + b2*2^8 + b3`: byte 0 in bits [31:24] (R19, R92). -/
def wordOfBytes (b0 b1 b2 b3 : Byte) : Word :=
  BitVec.ofNat 32 (b0.toNat * 2 ^ 24 + b1.toNat * 2 ^ 16 + b2.toNat * 2 ^ 8 + b3.toNat)

/-- Byte `i` of a word, byte 0 in bits [31:24] (R92). -/
def byteOfWord (w : Word) (i : Fin 4) : Byte := BitVec.ofNat 8 (w.toNat / 2 ^ (8 * (3 - i.val)))

/-- A word as a column: bytes `4i..4i+3` of a block are column `i` of its State (R92, R149). -/
def colOfWord (w : Word) : Col := ⟨byteOfWord w 0, byteOfWord w 1, byteOfWord w 2, byteOfWord w 3⟩

/-- A column as a word, row 0 in bits [31:24] (R54, R92). -/
def wordOfCol (c : Col) : Word := wordOfBytes c.r0 c.r1 c.r2 c.r3

/-- The State of the 16 bytes held by four words (R49, R52, R149). -/
def stateOfQuad (q : Quad) : AesState := ⟨colOfWord q.w0, colOfWord q.w1, colOfWord q.w2, colOfWord q.w3⟩

/-- The four words of a State's 16 bytes (R53, R149). -/
def quadOfState (s : AesState) : Quad := ⟨wordOfCol s.c0, wordOfCol s.c1, wordOfCol s.c2, wordOfCol s.c3⟩

/-- Word `i` of a bank. -/
def Quad.get (q : Quad) (i : Fin 4) : Word :=
  match i with
  | 0 => q.w0
  | 1 => q.w1
  | 2 => q.w2
  | 3 => q.w3

/-- The bank with word `i` replaced. -/
def Quad.set (q : Quad) (i : Fin 4) (v : Word) : Quad :=
  match i with
  | 0 => { q with w0 := v }
  | 1 => { q with w1 := v }
  | 2 => { q with w2 := v }
  | 3 => { q with w3 := v }

/-! ### Big operands (R50) -/

/-- Word `k` of a natural number, least significant word first: bits [32k+31:32k] (R50). -/
def wordAt (x k : Nat) : Word := BitVec.ofNat 32 (x / 2 ^ (32 * k))

/-- The number with bits [32k+31:32k] replaced by `v` (R50). -/
def setWordAt (x k : Nat) (v : Word) : Nat :=
  x % 2 ^ (32 * k) + v.toNat * 2 ^ (32 * k) + x / 2 ^ (32 * (k + 1)) * 2 ^ (32 * (k + 1))

/-- The value of an operand register (R21, R50). -/
def CoreState.operand (c : CoreState) (x : Operand) : Nat :=
  match x with
  | .A => c.opA
  | .B => c.opB
  | .E => c.opE
  | .N => c.opN
  | .R => c.opR

/-- The CORE with the value of an operand register replaced. -/
def CoreState.setOperand (c : CoreState) (x : Operand) (v : Nat) : CoreState :=
  match x with
  | .A => { c with opA := v }
  | .B => { c with opB := v }
  | .E => { c with opE := v }
  | .N => { c with opN := v }
  | .R => { c with opR := v }

end Sys2Proof.Machine
end

