-- ==== Sys2Proof/Machine/Ops.lean ====
section
/-! DEFINITION. The named operations: issue and completion of a command (R60, R61), the command error (R333), resets,
draws, the register window (R33, R83) and the host's accesses to it (`20_memory.md`). -/

namespace Sys2Proof.Machine

/-! ### Issue, completion, error, reset -/

/-- Issue of the command word `v` (R60): BUSY, `DONE` cleared, `KEYVALID` cleared for a well-formed AES_KEYEXP
only (R113). -/
def issue (v : Word) (c : CoreState) : CoreState :=
  { c with phase := .busy v, done := false, keyValid := if v = 0x00000001#32 then false else c.keyValid }

/-- What every completion writes beside the command's own results (R61): `ERR`, `LASTOP`, `BUSY = 0`, `DONE = 1`. -/
def complete (op : Byte) (err : ErrCode) (c : CoreState) : CoreState :=
  { c with phase := .idle, done := true, err := err, lastop := op }

/-- The command with opcode `op` ends with `ERR = OK`, its results being those in `c` (R61). -/
def finishOk (op : Byte) (c : CoreState) (s : State) : Host.Outcome State Fault Refusal :=
  .next { s with core := complete op .ok c }

/-- `raise CmdError(err)` (R23, R333): the one way a command fails. No result is written; the completion writes the
four fields of R61, and that is all it saves for the host (R345). The CORE takes no trap, so no pc is saved and no
mode changes; the return is the host's acknowledgement, `writeStatus` (R346). -/
def raiseCmdError (op : Byte) (err : ErrCode) (s : State) : Host.Outcome State Fault Refusal :=
  .next { s with core := complete op err s.core }

/-- An illegal command word completes with `ERR = ILLEGAL`, `LASTOP = v[7:0]` (R113). -/
def execIllegal (v : Word) (s : State) : Host.Outcome State Fault Refusal := raiseCmdError (opField v) .illegal s

/-- Hardware reset (R370): the CORE takes its reset values; what the host still has to do is not the CORE's. -/
def hardwareReset (s : State) : State := { s with core := CoreState.reset }

/-! ### Draws -/

/-- `Draw(lo, hi)` made from the source's number `x`: every number of `lo..hi` can come (R23, R220). -/
def drawIn (lo hi x : Nat) : Nat := lo + x % (hi - lo + 1)

/-! ### The register window (R33, R83) -/

/-- The operand whose region is the `n`-th 4 KiB of the window (R33). -/
def operandRegion (n : Nat) : Option Operand :=
  if n = 1 then some .A
  else if n = 2 then some .B
  else if n = 3 then some .E
  else if n = 4 then some .N
  else if n = 5 then some .R
  else none

/-- The operand word at an offset, if mapped: `X + 4k` for `k < NW` (R33, R83). -/
def operandAt (off : Nat) : Option Reg :=
  match operandRegion (off / 0x1000) with
  | none => none
  | some x => if off % 0x1000 / 4 < Config.nw then some (.operand x (off % 0x1000 / 4)) else none

/-- The register mapped at a byte offset; `none` for an unmapped or misaligned offset (R33, R83, R86). -/
def regAt (off : Nat) : Option Reg :=
  if off % 4 ≠ 0 then none
  else if off = 0x0000 then some .id
  else if off = 0x0004 then some .param
  else if off = 0x0008 then some .ctrl
  else if off = 0x000C then some .status
  else if off = 0x0010 then some .cmd
  else if 0x0020 ≤ off ∧ off ≤ 0x002C then some (.key (Fin.ofNat 4 ((off - 0x0020) / 4)))
  else if 0x0030 ≤ off ∧ off ≤ 0x003C then some (.din (Fin.ofNat 4 ((off - 0x0030) / 4)))
  else if 0x0040 ≤ off ∧ off ≤ 0x004C then some (.dout (Fin.ofNat 4 ((off - 0x0040) / 4)))
  else if 0x0100 ≤ off ∧ off ≤ 0x01AC then some (.rkw (Fin.ofNat 44 ((off - 0x0100) / 4)))
  else if 0x0200 ≤ off ∧ off ≤ 0x02FC then some (.sboxw (Fin.ofNat 64 ((off - 0x0200) / 4)))
  else if 0x0300 ≤ off ∧ off ≤ 0x03FC then some (.isboxw (Fin.ofNat 64 ((off - 0x0300) / 4)))
  else if 0x0400 ≤ off ∧ off ≤ 0x0408 then some (.rconw (Fin.ofNat 3 ((off - 0x0400) / 4)))
  else operandAt off

/-- The base of an operand's region (R33). -/
def Operand.base : Operand → Nat
  | .A => 0x1000
  | .B => 0x2000
  | .E => 0x3000
  | .N => 0x4000
  | .R => 0x5000

/-- `off(REG)`: the offset of a register (R33, R118). -/
def Reg.offset : Reg → Nat
  | .id => 0x0000
  | .param => 0x0004
  | .ctrl => 0x0008
  | .status => 0x000C
  | .cmd => 0x0010
  | .key i => 0x0020 + 4 * i.val
  | .din i => 0x0030 + 4 * i.val
  | .dout i => 0x0040 + 4 * i.val
  | .rkw j => 0x0100 + 4 * j.val
  | .sboxw j => 0x0200 + 4 * j.val
  | .isboxw j => 0x0300 + 4 * j.val
  | .rconw j => 0x0400 + 4 * j.val
  | .operand x k => x.base + 4 * k

/-- A register name that names a register: an operand word needs `k < NW` (R33). -/
def Reg.isMapped : Reg → Bool
  | .operand _ k => decide (k < Config.nw)
  | _ => true

/-- Four consecutive entries of a table as a word, entry `4j` in bits [31:24] (R55 to R57). -/
def romWord (f : Nat → Byte) (j : Nat) : Word := wordOfBytes (f (4 * j)) (f (4 * j + 1)) (f (4 * j + 2)) (f (4 * j + 3))

/-- `RKW(4i+c)`: column `c` of round key `i` (R54). -/
def roundKeyWord (rk : Vector AesState 11) (j : Fin 44) : Word :=
  wordOfCol ((rk[(⟨j.val / 4, by omega⟩ : Fin 11)]).col (Fin.ofNat 4 j.val))

/-- The current value of a register (R21); `CMD` reads 0 (R48). -/
def readReg (r : Reg) (c : CoreState) : Word :=
  match r with
  | .id => idWord
  | .param => paramWord
  | .ctrl => ctrlWord c
  | .status => statusWord c
  | .cmd => 0x00000000#32
  | .key i => c.key.get i
  | .din i => c.din.get i
  | .dout i => c.dout.get i
  | .rkw j => roundKeyWord c.rk j
  | .sboxw j => romWord (fun x => sbox (BitVec.ofNat 8 x)) j.val
  | .isboxw j => romWord (fun x => isbox (BitVec.ofNat 8 x)) j.val
  | .rconw j => romWord rcon j.val
  | .operand x k => wordAt (c.operand x) k

/-- Reads that return an unspecified word while the command that writes the register runs (R62). -/
def unspecifiedRead (r : Reg) (c : CoreState) : Bool :=
  match c.phase with
  | .idle => false
  | .busy v =>
    match r with
    | .dout _ => decode v == some .aesEnc || decode v == some .aesDec
    | .rkw _ => decode v == some .aesKeyexp
    | .operand .R _ => decode v == some .modmul || decode v == some .modexp
    | _ => false

/-- A write to an input register or to `CMD`: while busy it is ignored and sets `WIGN`, else it does `f` (R90). -/
def unlessBusy (f : CoreState → CoreState) (c : CoreState) : CoreState :=
  if c.busy then { c with wign := true } else f c

/-- What a host write of `v` to a register does (R34, R39, R40, R48 to R53, R89, R90). A write to a read-only register
is ignored, busy or not, with no error and no `WIGN`. -/
def writeReg (r : Reg) (v : Word) (c : CoreState) : CoreState :=
  match r with
  | .ctrl => writeCtrl v c
  | .status => writeStatus v c
  | .cmd => unlessBusy (issue v) c
  | .key i => unlessBusy (fun c => { c with key := c.key.set i v, keyValid := false }) c
  | .din i => unlessBusy (fun c => { c with din := c.din.set i v }) c
  | .operand .A k => unlessBusy (fun c => { c with opA := setWordAt c.opA k v }) c
  | .operand .B k => unlessBusy (fun c => { c with opB := setWordAt c.opB k v }) c
  | .operand .E k => unlessBusy (fun c => { c with opE := setWordAt c.opE k v }) c
  | .operand .N k => unlessBusy (fun c => { c with opN := setWordAt c.opN k v }) c
  | .operand .R _ => c
  | .id => c
  | .param => c
  | .dout _ => c
  | .rkw _ => c
  | .sboxw _ => c
  | .isboxw _ => c
  | .rconw _ => c

/-! ### Host accesses -/

/-- The register an access of `width` bytes at `off` reaches: only aligned 32-bit accesses to a mapped offset reach
one (R83, R84, R86). -/
def accessedReg (off width : Nat) : Option Reg := if width = 4 then regAt off else none

/-- `raise BusError(off)`: an error response, and no CORE state changes (R85). -/
def raiseBusError (off : Nat) (s : State) : State := { s with response := some (.busError off) }

/-- `MemRead` at a window offset (R22, R88, R103): no CORE state changes. -/
def readAt (off width : Nat) (s : State) : State :=
  match accessedReg off width with
  | none => raiseBusError off s
  | some r =>
    if unspecifiedRead r s.core then
      { s with response := some (.data (Config.freeWord s.busDraws)), busDraws := s.busDraws + 1 }
    else { s with response := some (.data (readReg r s.core)) }

/-- `MemWrite` at a window offset (R22, R89, R103). -/
def writeAt (off width : Nat) (v : Word) (s : State) : State :=
  match accessedReg off width with
  | none => raiseBusError off s
  | some r => { s with core := writeReg r v s.core, response := some .ack }

/-- The offset in the window of a host address, if it is in the window (R80). -/
def windowOffset (addr : Nat) : Option Nat :=
  if Config.coreBase ≤ addr ∧ addr - Config.coreBase < Config.windowBytes then some (addr - Config.coreBase) else none

/-- The address of an access. -/
def Access.addr : Access → Nat
  | .read a _ => a
  | .write a _ _ => a

/-- A host access at offset `off` of the window. -/
def accessAt (off : Nat) (a : Access) (s : State) : State :=
  match a with
  | .read _ width => readAt off width s
  | .write _ width v => writeAt off width v s

/-- A host access (R103). One outside the window is no access to this hardware (log entry 4). -/
def hostAccess (a : Access) (s : State) : Host.Outcome State Fault Refusal :=
  match windowOffset a.addr with
  | none => .fault (.outsideWindow a.addr)
  | some off => .next (accessAt off a s)

end Sys2Proof.Machine
end

