-- ==== Sys2Proof/Machine/AesCommands.lean ====
section
/-! DEFINITION. The AES commands (`41_aes_commands.md`). -/

namespace Sys2Proof.Machine

/-- AES_KEYEXP: the round-key RAM becomes the expansion of `KEY0..KEY3`, `KEYVALID` is set (R181). -/
def execAesKeyexp (s : State) : Host.Outcome State Fault Refusal :=
  finishOk 0x01#8 { s.core with rk := keyExpansion (stateOfQuad s.core.key), keyValid := true } s

/-- Common to AES_ENC and AES_DEC: `NOKEY` without a valid schedule, else `DOUT` is the block `f` makes of `DIN`
under the round keys in RAM (R185, R190). -/
def blockCommand (op : Byte) (f : AesState → Vector AesState 11 → AesState) (s : State) :
    Host.Outcome State Fault Refusal :=
  if s.core.keyValid then
    finishOk op { s.core with dout := quadOfState (f (stateOfQuad s.core.din) s.core.rk) } s
  else raiseCmdError op .noKey s

/-- AES_ENC encrypts the block in `DIN0..DIN3` (R185). -/
def execAesEnc (s : State) : Host.Outcome State Fault Refusal := blockCommand 0x02#8 cipher s

/-- AES_DEC decrypts the block in `DIN0..DIN3` (R190). -/
def execAesDec (s : State) : Host.Outcome State Fault Refusal := blockCommand 0x03#8 invCipher s

end Sys2Proof.Machine
end

