-- ==== Sys2Proof/Machine/Control.lean ====
section
/-! DEFINITION. The control command (`44_control.md`). -/

namespace Sys2Proof.Machine

/-- NOP does nothing but complete (R270). -/
def execNop (s : State) : Host.Outcome State Fault Refusal := finishOk 0x00#8 s.core s

end Sys2Proof.Machine
end

