-- ==== Sys2Proof/Machine/ModArith.lean ====
section
/-! DEFINITION. The modular kernels and commands (`43_modarith.md`). All arithmetic is exact on natural numbers
(R240). -/

namespace Sys2Proof.Machine

/-- `ModMul(a, b, n) = (a * b) mod n` (R241). -/
def modMul (a b n : Nat) : Nat := a * b % n

/-- The loop of `ModExp` (R242), at most `fuel` rounds: while `e > 0`, take in the low bit, halve, square. -/
def modExpLoop : Nat → Nat → Nat → Nat → Nat → Nat
  | 0, acc, _, _, _ => acc
  | fuel + 1, acc, base, e, n =>
    if e = 0 then acc
    else modExpLoop fuel (if e % 2 = 1 then modMul acc base n else acc) (modMul base base n) (e / 2) n

/-- `ModExp(a, e, n)` by square-and-multiply (R242); the loop runs once per bit of `e`. -/
def modExp (a e n : Nat) : Nat := modExpLoop (Nat.log2 e + 1) (1 % n) (a % n) e n

/-- Common to MODMUL and MODEXP: `MODZERO` when `N = 0`, else `R` is the result (R246, R247). -/
def modCommand (op : Byte) (result : Nat) (s : State) : Host.Outcome State Fault Refusal :=
  if s.core.opN = 0 then raiseCmdError op .modZero s else finishOk op { s.core with opR := result } s

/-- MODMUL: `R <- (A * B) mod N` (R246). -/
def execModmul (s : State) : Host.Outcome State Fault Refusal :=
  modCommand 0x10#8 (modMul s.core.opA s.core.opB s.core.opN) s

/-- MODEXP: `R <- A^E mod N` (R247). -/
def execModexp (s : State) : Host.Outcome State Fault Refusal :=
  modCommand 0x11#8 (modExp s.core.opA s.core.opE s.core.opN) s

end Sys2Proof.Machine
end

