-- ==== Sys2Proof/Machine/Primality.lean ====
section
/-! DEFINITION. The Miller-Rabin round and commands (`42_primality.md`). -/

namespace Sys2Proof.Machine

/-- The trailing zero bits of `m` and what is left of it, looking at `fuel` bits at most (R210). -/
def splitTwos : Nat → Nat → Nat × Nat
  | 0, m => (0, m)
  | fuel + 1, m =>
    if m % 2 = 0 then
      let rest := splitTwos fuel (m / 2)
      (rest.1 + 1, rest.2)
    else (0, m)

/-- `SD(n) = (s, d)` with `n - 1 = 2^s * d`, `d` odd, for `n >= 2` (R210). -/
def sd (n : Nat) : Nat × Nat := splitTwos (Nat.log2 (n - 1) + 1) (n - 1)

/-- The squaring loop of the round: up to `k` more squares, passing when one is `n - 1` (R211). -/
def squaringLoop : Nat → Nat → Nat → Bool
  | 0, _, _ => false
  | k + 1, x, n =>
    let y := modMul x x n
    if y = n - 1 then true else squaringLoop k y n

/-- `MRRound(n, a)`, `true` for PASS (R211); `s - 1` is 0 when `s` is 0, so an even `n` runs no square. -/
def mrRound (n a : Nat) : Bool :=
  let x := modExp a (sd n).2 n
  if x = 1 ∨ x = n - 1 then true else squaringLoop ((sd n).1 - 1) x n

/-- `SmallVerdict(n)` for `n < 4`, `true` for PRIME (R213). -/
def smallVerdict (n : Nat) : Bool := decide (n = 2 ∨ n = 3)

/-- MR_ROUND: one round on `N` with the witness `A` (R215). -/
def execMrRound (s : State) : Host.Outcome State Fault Refusal :=
  if s.core.opN < 4 then finishOk 0x20#8 { s.core with prime := smallVerdict s.core.opN } s
  else if s.core.opA < 2 ∨ s.core.opN - 2 < s.core.opA then raiseCmdError 0x20#8 .witness s
  else finishOk 0x20#8 { s.core with prime := mrRound s.core.opN s.core.opA } s

/-- The rounds of the full test with the source's numbers `ω 0, ω 1, …`: the verdict (`true` for PRIME) and how many
witnesses were drawn; the first failing round ends it (R219, R220). -/
def mrRounds (n : Nat) : Nat → (Nat → Nat) → Bool × Nat
  | 0, _ => (true, 0)
  | k + 1, ω =>
    if mrRound n (drawIn 2 (n - 2) (ω 0)) then
      let rest := mrRounds n k fun i => ω (i + 1)
      (rest.1, rest.2 + 1)
    else (false, 1)

/-- The full test on `n`: no draw for `n < 4`, else 128 rounds (R213, R219). -/
def mrTest (n : Nat) (ω : Nat → Nat) : Bool × Nat :=
  if n < 4 then (smallVerdict n, 0) else mrRounds n Config.mrRounds ω

/-- MR_TEST with the source's numbers `ω` (R219). -/
def mrTestCommand (ω : Nat → Nat) (s : State) : Host.Outcome State Fault Refusal :=
  let verdict := mrTest s.core.opN ω
  finishOk 0x21#8 { s.core with prime := verdict.1 } { s with entropyDraws := s.entropyDraws + verdict.2 }

/-- MR_TEST: the full test on `N` with witnesses from the entropy source (R219, R352). -/
def execMrTest (s : State) : Host.Outcome State Fault Refusal :=
  mrTestCommand (fun k => Config.entropy (s.entropyDraws + k)) s

end Sys2Proof.Machine
end

