-- ==== Sys2Proof/Machine/Sequencer.lean ====
section
/-! DEFINITION. Who moves next: the sequencer's turn (R61) and the handling of one pending event (R95, R337). -/

namespace Sys2Proof.Machine

/-- The sequencer's turn: the running command completes, as one atomic step (R61); an idle CORE does nothing
(R364). -/
def sequencerTurn (s : State) : Host.Outcome State Fault Refusal :=
  match s.core.phase with
  | .idle => .next s
  | .busy v =>
    match decode v with
    | none => execIllegal v s
    | some i => exec i s

/-- One event, the state being the one with the event already taken from the list. -/
def handleEvent (e : Event) (s : State) : Host.Outcome State Fault Refusal :=
  match e with
  | .host a => hostAccess a s
  | .hardwareReset => .next (hardwareReset s)
  | .sequencer => sequencerTurn s

/-- The next event; with none pending the sequencer has the turn, so that a running command is never postponed for
ever (R385). -/
def nextEvent (s : State) : Host.Outcome State Fault Refusal :=
  match s.events with
  | [] => sequencerTurn s
  | e :: es => handleEvent e { s with events := es }

/-- The command word `nbits`, `w` issued, and the turn given to the sequencer at once. -/
def issueAndRun (nbits w : Nat) (s : State) : State :=
  { s with core := issue (BitVec.ofNat 32 (w % 2 ^ nbits)) s.core, events := .sequencer :: s.events }

end Sys2Proof.Machine
end

