-- ==== Sys2Proof/Machine/Step.lean ====
section
/-! DEFINITION. One step of the machine, and the placing of a command word where the next step runs it. -/

namespace Sys2Proof.Machine

/-- One step: one pending event, or the sequencer's turn (R95, log entry 1). -/
def step (s : State) : Host.Outcome State Fault Refusal := nextEvent s

/-- The state in which the very next step runs the command word `w`: the CORE fetches nothing (R32), so the word is
issued as a host write to `CMD` would issue it to an idle CORE (R60), and the sequencer has the next turn
(log entry 2). -/
def State.withFetchWord (s : State) (nbits w : Nat) : State := issueAndRun nbits w s

end Sys2Proof.Machine
end

