-- ==== Sys2Proof/Machine/HostCodec.lean ====
section
/-! DEFINITION. The host's codecs and padding (`48_host_procedures.md` section 2, rules R282, R288, R290 to R295), the
host's parameters (R16) and its failures (R318). These are pure functions of the host; the CORE has no part in them
(R6). -/

namespace Sys2Proof.Machine

/-- A host text: a finite sequence of Unicode scalar values (R290). -/
abbrev Text := List Char

/-- The failures of the host procedures (R318), each distinct; the last two are the model's own (log entry 14). -/
inductive HostFailure where
  /-- AES key not 16 bytes (R281). -/
  | keyLength
  /-- A non-hex character (R293). -/
  | hexChar
  /-- An odd number of hex digits (R293). -/
  | hexOddLength
  /-- AES ciphertext byte length 0 or not a multiple of 16 (R284). -/
  | ciphertextLength
  /-- Pad byte 0, above 16, or inconsistent (R288). -/
  | invalidPadding
  /-- Ill-formed UTF-8 under `STRICT` (R291). -/
  | utf8Invalid
  /-- RSA plaintext of 0 bytes (R306). -/
  | emptyPlaintext
  /-- More than 1000 chunks (R306). -/
  | plaintextTooLong
  /-- A zero-length ciphertext chunk (R308). -/
  | emptyChunk
  /-- `gcd(e, phi) != 1` (R302). -/
  | notCoprime
  /-- An integer too wide for `BIG_BITS` (R280). -/
  | operandWidth
  /-- A CORE command ended with `ERR != 0` (R280). -/
  | coreError (code : BitVec 4)
  /-- A host access was answered with a bus error; how that reaches host software is OPEN (R85). Safe. -/
  | busError (off : Nat)
  /-- The model stopped or gave no answer; it never does in a host procedure. Safe. -/
  | noAnswer
  deriving DecidableEq, Repr

/-- `UTF8_POLICY` (R16, R291). -/
inductive Utf8Policy where
  | replace
  | strict
  deriving DecidableEq, Repr

/-- `CHUNK_SERIALIZATION` (R16, R307). -/
inductive ChunkSerialization where
  | minimal
  | fixed
  deriving DecidableEq, Repr

/-- The default of `UTF8_POLICY` (R291). -/
def utf8PolicyDefault : Utf8Policy := .replace

/-- The default of `CHUNK_SERIALIZATION` (R16). -/
def chunkSerializationDefault : ChunkSerialization := .minimal

/-- `RSA_BITS`, the default of key generation (R16). -/
def rsaBits : Nat := 2048

/-- `CHUNK_MAX` (R16). -/
def chunkMax : Nat := 245

/-- `CHUNK_COUNT_MAX` (R16). -/
def chunkCountMax : Nat := 1000

/-- `E_PUB` (R16). -/
def ePub : Nat := 65537

/-! ### UTF-8 (R290, R291) -/

/-- The UTF-8 sequence of one scalar value, 1 to 4 bytes (R290; the form itself is PRESUMED, log entry 12). -/
def utf8EncodeChar (c : Char) : List Byte :=
  let n := c.val.toNat
  if n < 0x80 then [BitVec.ofNat 8 n]
  else if n < 0x800 then [BitVec.ofNat 8 (0xC0 + n / 0x40), BitVec.ofNat 8 (0x80 + n % 0x40)]
  else if n < 0x10000 then
    [BitVec.ofNat 8 (0xE0 + n / 0x1000), BitVec.ofNat 8 (0x80 + n / 0x40 % 0x40), BitVec.ofNat 8 (0x80 + n % 0x40)]
  else
    [BitVec.ofNat 8 (0xF0 + n / 0x40000), BitVec.ofNat 8 (0x80 + n / 0x1000 % 0x40),
      BitVec.ofNat 8 (0x80 + n / 0x40 % 0x40), BitVec.ofNat 8 (0x80 + n % 0x40)]

/-- The text of a host string given by code points: each unpaired surrogate counts as U+FFFD (R290). Two surrogates side
by side, of which R290 does not speak, count as one U+FFFD each (DESIGN CHOICE, log entry 12). -/
def textOfCodePoints (ps : List Nat) : Text :=
  ps.map fun p => if 0xD800 ≤ p ∧ p ≤ 0xDFFF then Char.ofNat 0xFFFD else Char.ofNat p

/-- `Utf8Encode(text)` (R290). -/
def utf8Encode (t : Text) : List Byte := t.flatMap utf8EncodeChar

/-- What a lead byte above 0x7F asks of the second byte (lowest, highest) and how many bytes its sequence has;
`none` for a byte no well-formed sequence starts with (PRESUMED, log entry 12). -/
def utf8Lead (b : Nat) : Option (Nat × Nat × Nat) :=
  if 0xC2 ≤ b ∧ b ≤ 0xDF then some (0x80, 0xBF, 2)
  else if b = 0xE0 then some (0xA0, 0xBF, 3)
  else if b = 0xED then some (0x80, 0x9F, 3)
  else if 0xE1 ≤ b ∧ b ≤ 0xEF then some (0x80, 0xBF, 3)
  else if b = 0xF0 then some (0x90, 0xBF, 4)
  else if 0xF1 ≤ b ∧ b ≤ 0xF3 then some (0x80, 0xBF, 4)
  else if b = 0xF4 then some (0x80, 0x8F, 4)
  else none

/-- Byte `i` of what follows, as a number; 0 past the end, which continues no sequence. -/
def byteNat (bs : List Byte) (i : Nat) : Nat := (bs.getD i 0x00#8).toNat

/-- A continuation byte. -/
def isContinuation (b : Nat) : Bool := decide (0x80 ≤ b ∧ b ≤ 0xBF)

/-- The first sequence of `b :: bs`: its scalar value if it is well formed, and how many bytes it takes; an
ill-formed start takes the longest beginning of a well-formed sequence, or one byte. -/
def utf8Next (b : Byte) (bs : List Byte) : Option Char × Nat :=
  let n := b.toNat
  if n < 0x80 then (some (Char.ofNat n), 1)
  else
    match utf8Lead n with
    | none => (none, 1)
    | some (lo, hi, len) =>
      if ¬ (lo ≤ byteNat bs 0 ∧ byteNat bs 0 ≤ hi) then (none, 1)
      else if len = 2 then (some (Char.ofNat (n % 0x20 * 0x40 + byteNat bs 0 % 0x40)), 2)
      else if ¬ isContinuation (byteNat bs 1) then (none, 2)
      else if len = 3 then
        (some (Char.ofNat (n % 0x10 * 0x1000 + byteNat bs 0 % 0x40 * 0x40 + byteNat bs 1 % 0x40)), 3)
      else if ¬ isContinuation (byteNat bs 2) then (none, 3)
      else
        (some (Char.ofNat (n % 0x08 * 0x40000 + byteNat bs 0 % 0x40 * 0x1000 + byteNat bs 1 % 0x40 * 0x40
          + byteNat bs 2 % 0x40)), 4)

/-- The decoder's loop, at most `fuel` sequences. -/
def utf8Loop (policy : Utf8Policy) : Nat → List Byte → Except HostFailure Text
  | 0, _ => .ok []
  | _ + 1, [] => .ok []
  | fuel + 1, b :: bs =>
    match (utf8Next b bs).1, policy with
    | some c, _ => (utf8Loop policy fuel (bs.drop ((utf8Next b bs).2 - 1))).map (c :: ·)
    | none, .replace => (utf8Loop policy fuel (bs.drop ((utf8Next b bs).2 - 1))).map (Char.ofNat 0xFFFD :: ·)
    | none, .strict => .error .utf8Invalid

/-- `Utf8Decode(bytes)` under `UTF8_POLICY` (R291). -/
def utf8Decode (policy : Utf8Policy) (bs : List Byte) : Except HostFailure Text := utf8Loop policy bs.length bs

/-! ### Hex (R292, R293) -/

/-- The lower-case digit of a number below 16. -/
def hexDigit (n : Nat) : Char := if n < 10 then Char.ofNat (48 + n) else Char.ofNat (87 + n)

/-- The value of a hex digit, upper case accepted (R293). -/
def hexValue (c : Char) : Option Nat :=
  let n := c.val.toNat
  if 48 ≤ n ∧ n ≤ 57 then some (n - 48)
  else if 97 ≤ n ∧ n ≤ 102 then some (n - 87)
  else if 65 ≤ n ∧ n ≤ 70 then some (n - 55)
  else none

/-- `BytesToHex(b)`: two lower-case digits per byte, high nibble first (R292). -/
def bytesToHex (bs : List Byte) : Text := bs.flatMap fun b => [hexDigit (b.toNat / 16), hexDigit (b.toNat % 16)]

/-- The bytes of pairs of digit values. -/
def pairUp : List Nat → List Byte
  | hi :: lo :: rest => BitVec.ofNat 8 (16 * hi + lo) :: pairUp rest
  | _ => []

/-- `HexToBytes(h)`: characters are checked before the length (R293). -/
def hexToBytes (h : Text) : Except HostFailure (List Byte) :=
  if h.any fun c => (hexValue c).isNone then .error .hexChar
  else if h.length % 2 = 1 then .error .hexOddLength
  else .ok (pairUp (h.filterMap hexValue))

/-! ### Big-endian conversion (R295) -/

/-- `BEInt(b)` (R295). -/
def beInt (bs : List Byte) : Nat := bs.foldl (fun x b => 256 * x + b.toNat) 0

/-- The big-endian digits of `x` in base `base`, before `acc`, at most `fuel` of them; none for 0. -/
def digitsBE (base : Nat) : Nat → Nat → List Nat → List Nat
  | 0, _, acc => acc
  | fuel + 1, x, acc => if x = 0 then acc else digitsBE base fuel (x / base) (x % base :: acc)

/-- `bitlen(x)`. -/
def bitLen (x : Nat) : Nat := if x = 0 then 0 else Nat.log2 x + 1

/-- `MinBytes(x)`: the shortest big-endian byte string, one byte for 0 (R295). -/
def minBytes (x : Nat) : List Byte :=
  if x = 0 then [0x00#8] else (digitsBE 256 (bitLen x) x []).map (BitVec.ofNat 8)

/-- `FixedBytes(x, k)`: `MinBytes(x)` left-padded with 0x00 to `k` bytes (R295). -/
def fixedBytes (x k : Nat) : List Byte := List.replicate (k - (minBytes x).length) 0x00#8 ++ minBytes x

/-! ### Padding (R282, R288) -/

/-- `Pad(m)`: `p = 16 - len mod 16` bytes of value `p` (R282). -/
def pad (m : List Byte) : List Byte := m ++ List.replicate (16 - m.length % 16) (BitVec.ofNat 8 (16 - m.length % 16))

/-- `Unpad(m)` (R288). -/
def unpad (m : List Byte) : Except HostFailure (List Byte) :=
  let p := (m.getLastD 0x00#8).toNat
  if p = 0 ∨ 16 < p then .error .invalidPadding
  else if (m.drop (m.length - p)).any fun b => b.toNat != p then .error .invalidPadding
  else .ok (m.take (m.length - p))

end Sys2Proof.Machine
end

