-- ==== Sys2Proof/Machine/HostAccess.lean ====
section
/-! DEFINITION. The host's helpers over the bus primitives (`48_host_procedures.md` rule R280). A host procedure is a
function of the machine: it answers a value or a failure, and the machine after its accesses. It drives the machine
itself, access by access, in between giving the sequencer its turn (log entry 10). -/

namespace Sys2Proof.Machine

/-- A host procedure that answers an `α` (R318: a failure is named, and returns no partial result). -/
abbrev HostM (α : Type) := ExceptT HostFailure (StateM State) α

/-- Run a host procedure on a machine. -/
def runHost {α : Type} (p : HostM α) (s : State) : Except HostFailure α × State := (p.run).run s

/-- A pure check inside a procedure. -/
def hostCheck {α : Type} (x : Except HostFailure α) : HostM α :=
  match x with
  | .ok a => pure a
  | .error e => throw e

/-- `MemWrite(CORE_BASE + off, 4, v)` (R22, R103). -/
def hostWrite (off : Nat) (v : Word) : HostM Unit := do
  let s ← get
  let t := writeAt off 4 v s
  set t
  match t.response with
  | some .ack => pure ()
  | some (.busError o) => throw (.busError o)
  | _ => throw .noAnswer

/-- `MemRead(CORE_BASE + off, 4)` (R22, R103). -/
def hostRead (off : Nat) : HostM Word := do
  let s ← get
  let t := readAt off 4 s
  set t
  match t.response with
  | some (.data w) => pure w
  | some (.busError o) => throw (.busError o)
  | _ => throw .noAnswer

/-- The sequencer's turn, between two host accesses (R95). -/
def letSequencerMove : HostM Unit := do
  let s ← get
  match sequencerTurn s with
  | .next t => set t
  | _ => throw .noAnswer

/-- "repeat … until st[0] = 0" of R280: the command completes after `latency` polls at the latest. -/
def pollUntilIdle : Nat → HostM Word
  | 0 => do
    letSequencerMove
    hostRead 0x000C
  | latency + 1 => do
    let st ← hostRead 0x000C
    if st.getLsbD 0 then pollUntilIdle latency else pure st

/-- `CoreRun(word)` with a command that completes after `latency` polls (R280). -/
def coreRunAfter (latency : Nat) (word : Word) : HostM Word := do
  hostWrite 0x0010 word
  let st ← pollUntilIdle latency
  if st.extractLsb' 8 4 ≠ 0#4 then throw (.coreError (st.extractLsb' 8 4)) else pure st

/-- `CoreRun(word)`: no rule depends on the latency (R385), so the procedures take none (log entry 10). -/
def coreRun (word : Word) : HostM Word := coreRunAfter 0 word

/-- Writes of words to consecutive offsets. -/
def writeWords : Nat → List Word → HostM Unit
  | _, [] => pure ()
  | off, w :: ws => do
    hostWrite off w
    writeWords (off + 4) ws

/-- Reads of `n` words from consecutive offsets. -/
def readWords : Nat → Nat → HostM (List Word)
  | _, 0 => pure []
  | off, n + 1 => do
    let w ← hostRead off
    let ws ← readWords (off + 4) n
    pure (w :: ws)

/-- Word `i` of a block: `b[4i] ‖ b[4i+1] ‖ b[4i+2] ‖ b[4i+3]` (R280). -/
def blockWord (b : List Byte) (i : Nat) : Word :=
  wordOfBytes (b.getD (4 * i) 0x00#8) (b.getD (4 * i + 1) 0x00#8) (b.getD (4 * i + 2) 0x00#8) (b.getD (4 * i + 3) 0x00#8)

/-- The bytes of a word, [31:24] first (R280). -/
def bytesOfWord (w : Word) : List Byte := [byteOfWord w 0, byteOfWord w 1, byteOfWord w 2, byteOfWord w 3]

/-- `LoadBlock(base, b)` (R280). -/
def loadBlock (base : Nat) (b : List Byte) : HostM Unit :=
  writeWords base [blockWord b 0, blockWord b 1, blockWord b 2, blockWord b 3]

/-- `ReadOut()` (R280). -/
def readOut : HostM (List Byte) := do
  let ws ← readWords 0x0040 4
  pure (ws.flatMap bytesOfWord)

/-- `LoadBig(base, x)` (R280). -/
def loadBig (base x : Nat) : HostM Unit :=
  if 2 ^ Config.bigBits ≤ x then throw .operandWidth
  else writeWords base ((List.range Config.nw).map (wordAt x))

/-- The number of words given least significant first. -/
def natOfWords : List Word → Nat
  | [] => 0
  | w :: ws => w.toNat + 2 ^ 32 * natOfWords ws

/-- `ReadBig()` (R280). -/
def readBig : HostM Nat := do
  let ws ← readWords 0x5000 Config.nw
  pure (natOfWords ws)

/-- `HostModExp(a, e, n)` (R280). -/
def hostModExp (a e n : Nat) : HostM Nat := do
  loadBig 0x1000 a
  loadBig 0x3000 e
  loadBig 0x4000 n
  let _ ← coreRun 0x00000011#32
  readBig

/-- `HostIsProbablePrime(n)` (R280). -/
def hostIsProbablePrime (n : Nat) : HostM Bool := do
  loadBig 0x4000 n
  let st ← coreRun 0x00000021#32
  pure (st.getLsbD 3)

end Sys2Proof.Machine
end

