-- ==== Sys2Proof/Machine/HostAes.lean ====
section
/-! DEFINITION. The host's AES procedures (`48_host_procedures.md` rules R281 to R285, R296). -/

namespace Sys2Proof.Machine

/-- An AES key as the caller gives it: text, or the bytes themselves (R281). -/
inductive AesKey where
  | text (t : Text)
  | bytes (b : List Byte)
  deriving DecidableEq, Repr

/-- The bytes of a key as given, of whatever length (R281). -/
def rawKeyBytes : AesKey → List Byte
  | .text t => utf8Encode t
  | .bytes b => b

/-- `AesKeyBytes(key)`: the length is checked in bytes (R281). -/
def aesKeyBytes (key : AesKey) : Except HostFailure (List Byte) :=
  if (rawKeyBytes key).length = 16 then .ok (rawKeyBytes key) else .error .keyLength

/-- The blocks of 16 bytes of a byte string, at most `n` of them. -/
def blocks : Nat → List Byte → List (List Byte)
  | 0, _ => []
  | n + 1, bs => bs.take 16 :: blocks n (bs.drop 16)

/-- One block through the CORE: load `DIN`, run `word`, read `DOUT` (R283, R285). -/
def runBlock (word : Word) (b : List Byte) : HostM (List Byte) := do
  loadBlock 0x0030 b
  let _ ← coreRun word
  readOut

/-- The blocks in order, the results joined (R283, R285). -/
def runBlocks (word : Word) : List (List Byte) → HostM (List Byte)
  | [] => pure []
  | b :: rest => do
    let c ← runBlock word b
    let cs ← runBlocks word rest
    pure (c ++ cs)

/-- Load the key, expand it, and run `word` on every block of `m` (R283, R285). -/
def withKey (k : List Byte) (word : Word) (m : List Byte) : HostM (List Byte) := do
  loadBlock 0x0020 k
  let _ ← coreRun 0x00000001#32
  runBlocks word (blocks (m.length / 16) m)

/-- `EncryptAES(plaintext, key)` (R283). -/
def encryptAes (plaintext : Text) (key : AesKey) : HostM Text := do
  let k ← hostCheck (aesKeyBytes key)
  let c ← withKey k 0x00000002#32 (pad (utf8Encode plaintext))
  pure (bytesToHex c)

/-- The checks of R284, in its order, before any CORE access: the key's bytes and the ciphertext's. -/
def decryptChecks (ciphertextHex : Text) (key : AesKey) : Except HostFailure (List Byte × List Byte) :=
  match aesKeyBytes key with
  | .error e => .error e
  | .ok k =>
    match hexToBytes ciphertextHex with
    | .error e => .error e
    | .ok c => if c.length = 0 ∨ c.length % 16 ≠ 0 then .error .ciphertextLength else .ok (k, c)

/-- `Utf8Decode(Unpad(m))` (R285). -/
def unpadText (policy : Utf8Policy) (m : List Byte) : Except HostFailure Text :=
  match unpad m with
  | .error e => .error e
  | .ok t => utf8Decode policy t

/-- `DecryptAES(ciphertext_hex, key)` (R285). -/
def decryptAes (policy : Utf8Policy) (ciphertextHex : Text) (key : AesKey) : HostM Text := do
  let kc ← hostCheck (decryptChecks ciphertextHex key)
  let m ← withKey kc.1 0x00000003#32 kc.2
  hostCheck (unpadText policy m)

/-- Character `i` of the 62: `A-Z`, `a-z`, `0-9` (R296). -/
def keyChar (i : Nat) : Char :=
  if i % 62 < 26 then Char.ofNat (65 + i % 62)
  else if i % 62 < 52 then Char.ofNat (71 + i % 62)
  else Char.ofNat (i % 62 - 4)

/-- `RandomAesKey()` from the host's draws `ω 0 .. ω 15`, each an unconstrained choice in the 62 characters (R296). -/
def randomAesKey (ω : Nat → Nat) : Text := (List.range 16).map fun i => keyChar (ω i)

end Sys2Proof.Machine
end

