-- ==== Sys2Proof/Machine/HostKeys.lean ====
section
/-! DEFINITION. Prime and key generation on the host (`48_host_procedures.md` rules R300 to R305). -/

namespace Sys2Proof.Machine

/-- A candidate from the draw `x` of `HostDraw(0, 2^bits - 1)`: top and bottom bit forced to 1 (R300). -/
def primeCandidate (bits x : Nat) : Nat := x % 2 ^ bits ||| 2 ^ (bits - 1) ||| 1

/-- `GenPrime(bits)` over the host's draws, for `bits >= 2` (R300): the prime and the draws left, or `none` when the
draws run out before a candidate passes (the loop has no bound; log entry 11). -/
def genPrime (bits : Nat) : List Nat → HostM (Option (Nat × List Nat))
  | [] => pure none
  | x :: draws => do
    let passes ← hostIsProbablePrime (primeCandidate bits x)
    if passes then pure (some (primeCandidate bits x, draws)) else genPrime bits draws

/-- The loop of `ExtEuclid` (R303), at most `fuel` rounds. -/
def extEuclidLoop : Nat → Int → Int → Int → Int → Int → Int → Int × Int × Int
  | 0, r0, _, x0, _, y0, _ => (r0, x0, y0)
  | fuel + 1, r0, r1, x0, x1, y0, y1 =>
    if r1 = 0 then (r0, x0, y0)
    else extEuclidLoop fuel r1 (r0 - r0 / r1 * r1) x1 (x0 - r0 / r1 * x1) y1 (y0 - r0 / r1 * y1)

/-- `ExtEuclid(a, b)`: `(g, x, y)` with `a*x + b*y = g = gcd(a, b)` (R303); a round makes the second remainder
smaller, so `b + 1` rounds are enough. -/
def extEuclid (a b : Nat) : Int × Int × Int := extEuclidLoop (b + 1) a b 1 0 0 1

/-- `Gcd(a, b)` (R303). -/
def hostGcd (a b : Nat) : Int := (extEuclid a b).1

/-- `ModInverse(e, m)`: `x mod m`, the remainder in `0..m-1` of a signed `x` (R303). -/
def modInverse (e m : Nat) : Nat := ((extEuclid e m).2.1 % (m : Int)).toNat

/-- An RSA key pair: public `(n, e)`, private `(n, d)` (R305). -/
structure KeyPair where
  n : Nat
  e : Nat
  d : Nat
  deriving DecidableEq, Repr

/-- The key pair of two primes (R302). -/
def keyPairOf (p q : Nat) : Except HostFailure KeyPair :=
  if hostGcd ePub ((p - 1) * (q - 1)) ≠ 1 then .error .notCoprime
  else .ok ⟨p * q, ePub, modInverse ePub ((p - 1) * (q - 1))⟩

/-! ### The two searches, one after the other or by turns (R301) -/

/-- A search for a prime under way: the draws it has left, and the prime once it is found. -/
structure PrimeSearch where
  draws : List Nat
  found : Option Nat
  deriving DecidableEq, Repr

/-- One turn of a search, a whole `HostIsProbablePrime` call on its next candidate, so that no other search touches the
CORE within it (R301). A search that found its prime, or has no draw left, does nothing. -/
def PrimeSearch.turn (bits : Nat) (search : PrimeSearch) : HostM PrimeSearch :=
  match search.found, search.draws with
  | some _, _ => pure search
  | none, [] => pure search
  | none, x :: draws => do
    let passes ← hostIsProbablePrime (primeCandidate bits x)
    pure ⟨draws, if passes then some (primeCandidate bits x) else none⟩

/-- Which of the two searches has the turn. -/
inductive Searcher where
  | p
  | q
  deriving DecidableEq, Repr

/-- Two searches that take turns on one CORE, in the order given (R301): the primes found, or `none` if the turns end
before both are found (log entry 11). -/
def searchByTurns (bits : Nat) : List Searcher → PrimeSearch → PrimeSearch → HostM (Option (Nat × Nat))
  | [], sp, sq =>
    match sp.found, sq.found with
    | some p, some q => pure (some (p, q))
    | _, _ => pure none
  | .p :: turns, sp, sq => do
    let sp ← sp.turn bits
    searchByTurns bits turns sp sq
  | .q :: turns, sp, sq => do
    let sq ← sq.turn bits
    searchByTurns bits turns sp sq

/-- The search for `q` after that for `p`, over one list of the host's draws (R301). -/
def searchInSequence (bits : Nat) (draws : List Nat) : HostM (Option (Nat × Nat)) := do
  let p ← genPrime bits draws
  match p with
  | none => pure none
  | some (p, draws) =>
    let q ← genPrime bits draws
    match q with
    | none => pure none
    | some (q, _) => pure (some (p, q))

/-- How the host searches for `p` and `q`, with the draws it makes (R301): a parameter of the host. -/
inductive SearchMode where
  | sequential (draws : List Nat)
  | parallel (drawsP drawsQ : List Nat) (turns : List Searcher)
  deriving DecidableEq, Repr

/-- The two primes (R300, R301). -/
def findPrimes (bits : Nat) : SearchMode → HostM (Option (Nat × Nat))
  | .sequential draws => searchInSequence bits draws
  | .parallel drawsP drawsQ turns => searchByTurns bits turns ⟨drawsP, none⟩ ⟨drawsQ, none⟩

/-- `GenKeyPair(bits)`, for even `bits >= 4` (R302). `none` when the draws or the turns run out (log entry 11). -/
def genKeyPair (bits : Nat) (mode : SearchMode) : HostM (Option KeyPair) := do
  let primes ← findPrimes (bits / 2) mode
  match primes with
  | none => pure none
  | some (p, q) =>
    let k ← hostCheck (keyPairOf p q)
    pure (some k)

/-- `GenKeyPair()` with the default size (R16, R302). -/
def genDefaultKeyPair (mode : SearchMode) : HostM (Option KeyPair) := genKeyPair rsaBits mode

end Sys2Proof.Machine
end

