-- ==== Sys2Proof/Machine/HostProgram.lean ====
section
/-! DEFINITION. Host programs (`30_encoding.md` rules R118 to R120): the statements, the pseudo-instructions and their
expansions, and the running of a program against the machine. Host variables are not CORE state (R118), so a run has
a state of its own around the machine's. -/

namespace Sys2Proof.Machine

/-- A host expression over numbered host variables, which are unbounded integers (R118). `cat a b` is `a ‖ b` with `b`
a 32-bit word, as `rdblk` and `rdbig` join their words (R119). -/
inductive HostExpr where
  | num (v : Int)
  | var (x : Nat)
  | add (a b : HostExpr)
  | sub (a b : HostExpr)
  | bits (x hi lo : Nat)
  | cat (a b : HostExpr)
  deriving DecidableEq, Repr

/-- A branch condition (R118). -/
inductive HostCond where
  | eq (a b : HostExpr)
  | ne (a b : HostExpr)
  deriving DecidableEq, Repr

/-- A host statement (R118); labels are numbers. -/
inductive HostStmt where
  | wr (r : Reg) (e : HostExpr)
  | rd (r : Reg) (x : Nat)
  | cmd (i : Instr)
  | set (x : Nat) (e : HostExpr)
  | label (l : Nat)
  | ifGoto (c : HostCond) (l : Nat)
  | goto (l : Nat)
  | halt
  deriving DecidableEq, Repr

/-- One bus transaction of a program, with its offset and data (R120). -/
inductive Transaction where
  | w (off : Nat) (data : Word)
  | r (off : Nat) (data : Word)
  deriving DecidableEq, Repr

/-- Who moves next in a run. -/
inductive Mover where
  | host
  | sequencer
  deriving DecidableEq, Repr

/-- A run of a host program: the program's place and variables, its transactions so far (the latest first), who moves
next, and the machine. -/
structure HostRun where
  pc : Nat
  vars : List (Nat × Int)
  trace : List Transaction
  stopped : Option HostFailure
  halted : Bool
  movers : List Mover
  machine : State
  deriving DecidableEq, Repr

/-- The value of a host variable; 0 if it was never set (DESIGN CHOICE, log entry 13). -/
def varValue (vars : List (Nat × Int)) (x : Nat) : Int :=
  match vars with
  | [] => 0
  | (y, v) :: rest => if x = y then v else varValue rest x

/-- The value of an expression; `t[hi:lo]` is an unsigned field (R17). Of a negative variable, for which R17 defines no
field, it is the field of the two's complement form, by floor division (DESIGN CHOICE, log entry 13). -/
def HostExpr.value (vars : List (Nat × Int)) : HostExpr → Int
  | .num v => v
  | .var x => varValue vars x
  | .add a b => a.value vars + b.value vars
  | .sub a b => a.value vars - b.value vars
  | .bits x hi lo => varValue vars x / 2 ^ lo % 2 ^ (hi - lo + 1)
  | .cat a b => a.value vars * 2 ^ 32 + b.value vars

/-- Whether a condition holds. -/
def HostCond.holds (vars : List (Nat × Int)) : HostCond → Bool
  | .eq a b => decide (a.value vars = b.value vars)
  | .ne a b => decide (a.value vars ≠ b.value vars)

/-- The place of a label: the first one where it stands twice, the end of the program if it has none (both DESIGN CHOICE,
log entry 13). -/
def labelPlace (prog : List HostStmt) (l : Nat) : Nat := prog.idxOf (.label l)

/-- A host write of a program: the transaction is recorded (R120); a bus error stops the program. -/
def HostRun.write (h : HostRun) (off : Nat) (v : Word) : HostRun :=
  match runHost (hostWrite off v) h.machine with
  | (.ok _, m) => { h with pc := h.pc + 1, machine := m, trace := .w off v :: h.trace }
  | (.error e, m) => { h with machine := m, stopped := some e }

/-- A host read of a program into a variable. -/
def HostRun.read (h : HostRun) (off x : Nat) : HostRun :=
  match runHost (hostRead off) h.machine with
  | (.ok w, m) =>
    { h with pc := h.pc + 1, machine := m, vars := (x, (w.toNat : Int)) :: h.vars, trace := .r off w :: h.trace }
  | (.error e, m) => { h with machine := m, stopped := some e }

/-- One statement (R118). -/
def HostRun.stmt (prog : List HostStmt) (h : HostRun) : HostStmt → HostRun
  | .wr r e => h.write r.offset (BitVec.ofInt 32 (e.value h.vars))
  | .rd r x => h.read r.offset x
  | .cmd i => h.write 0x0010 (encode i)
  | .set x e => { h with pc := h.pc + 1, vars := (x, e.value h.vars) :: h.vars }
  | .label _ => { h with pc := h.pc + 1 }
  | .ifGoto c l => if c.holds h.vars then { h with pc := labelPlace prog l } else { h with pc := h.pc + 1 }
  | .goto l => { h with pc := labelPlace prog l }
  | .halt => { h with halted := true }

/-- The host's move: the statement at its place; past the end the program halts. -/
def HostRun.hostMove (prog : List HostStmt) (h : HostRun) : HostRun :=
  match prog[h.pc]? with
  | none => { h with halted := true }
  | some st => h.stmt prog st

/-- The sequencer's move. -/
def HostRun.sequencerMove (h : HostRun) : HostRun :=
  match sequencerTurn h.machine with
  | .next m => { h with machine := m }
  | _ => { h with stopped := some .noAnswer }

/-- One move of a run. Who moves is plain data; when `movers` is empty a running command completes before the next
statement (R95, log entry 13). -/
def HostRun.move (prog : List HostStmt) (h : HostRun) : HostRun :=
  if h.halted || h.stopped.isSome then h
  else
    match h.movers with
    | .host :: rest => HostRun.hostMove prog { h with movers := rest }
    | .sequencer :: rest => HostRun.sequencerMove { h with movers := rest }
    | [] => if h.machine.core.busy then h.sequencerMove else h.hostMove prog

/-- `n` moves. -/
def HostRun.run (prog : List HostStmt) : Nat → HostRun → HostRun
  | 0, h => h
  | n + 1, h => HostRun.run prog n (h.move prog)

/-- The start of a program on a machine. -/
def HostRun.start (movers : List Mover) (m : State) : HostRun := ⟨0, [], [], none, false, movers, m⟩

/-! ### Pseudo-instructions (R119); `t` is a scratch variable, `l` a fresh label -/

/-- `wait`: poll `STATUS` until `BUSY = 0`. -/
def hostWait (t l : Nat) : List HostStmt :=
  [.label l, .rd .status t, .ifGoto (.eq (.bits t 0 0) (.num 1)) l]

/-- `run MNEMONIC`. -/
def hostRunCmd (i : Instr) (t l : Nat) : List HostStmt := .cmd i :: hostWait t l

/-- `ldblk KEY, h`. -/
def ldblkKey (h : Quad) : List HostStmt :=
  [0, 1, 2, 3].map fun i => .wr (.key i) (.num ((h.get i).toNat : Int))

/-- `ldblk DIN, h`. -/
def ldblkDin (h : Quad) : List HostStmt :=
  [0, 1, 2, 3].map fun i => .wr (.din i) (.num ((h.get i).toNat : Int))

/-- `rdblk DOUT -> t`: the words into `t0 .. t0+3`, then `t = t0 ‖ t1 ‖ t2 ‖ t3`. -/
def rdblkDout (t t0 : Nat) : List HostStmt :=
  [.rd (.dout 0) t0, .rd (.dout 1) (t0 + 1), .rd (.dout 2) (t0 + 2), .rd (.dout 3) (t0 + 3),
    .set t (.cat (.cat (.cat (.var t0) (.var (t0 + 1))) (.var (t0 + 2))) (.var (t0 + 3)))]

/-- `ldbig X, n` with a number `n`. That `n` may be a number or a host variable is the model's choice (DESIGN CHOICE, log
entry 13); the other form is `ldbigVar`. -/
def ldbig (x : Operand) (n : Nat) : List HostStmt :=
  (List.range Config.nw).map fun k => .wr (.operand x k) (.num ((wordAt n k).toNat : Int))

/-- `ldbig X, n` with a host variable `n`: word `k` is its field `n[32k+31:32k]` (DESIGN CHOICE, log entry 13). -/
def ldbigVar (x : Operand) (n : Nat) : List HostStmt :=
  (List.range Config.nw).map fun k => .wr (.operand x k) (.bits n (32 * k + 31) (32 * k))

/-- The join of the `n` words in `t0, t0+1, …`, the last the most significant. -/
def bigExpr (t0 : Nat) : Nat → HostExpr
  | 0 => .num 0
  | n + 1 => .cat (bigExpr (t0 + 1) n) (.var t0)

/-- `rdbig R -> t`: word `k` into `t0 + k`, then the sum. -/
def rdbig (t t0 : Nat) : List HostStmt :=
  (List.range Config.nw).map (fun k => HostStmt.rd (.operand .R k) (t0 + k)) ++ [.set t (bigExpr t0 Config.nw)]

/-- `clrdone`. -/
def clrdone : List HostStmt := [.wr .status (.num 0x00000002)]

/-- `clrwign`. -/
def clrwign : List HostStmt := [.wr .status (.num 0x00000010)]

/-- `srst`. -/
def srst : List HostStmt := [.wr .ctrl (.num 0x00000002)]

end Sys2Proof.Machine
end

