-- ==== Sys2Proof/Machine/HostRsa.lean ====
section
/-! DEFINITION. RSA chunked encryption and decryption on the host (`48_host_procedures.md` rules R306 to R310). -/

namespace Sys2Proof.Machine

/-- `ceil(a / b)`. -/
def ceilDiv (a b : Nat) : Nat := (a + b - 1) / b

/-- `Ser(c)` under `CHUNK_SERIALIZATION` (R307). -/
def serializeChunk (mode : ChunkSerialization) (n c : Nat) : List Byte :=
  match mode with
  | .minimal => minBytes c
  | .fixed => fixedBytes c (ceilDiv (bitLen n) 8)

/-- The chunks of at most 245 bytes of a byte string, `count` of them (R306). -/
def chunks : Nat → List Byte → List (List Byte)
  | 0, _ => []
  | count + 1, b => b.take chunkMax :: chunks count (b.drop chunkMax)

/-- Encrypts the chunks in order (R306); the host does not check that a chunk is below `n`. -/
def encryptChunks (mode : ChunkSerialization) (n e : Nat) : List (List Byte) → HostM (List (List Byte))
  | [] => pure []
  | ch :: rest => do
    let c ← hostModExp (beInt ch) e n
    let out ← encryptChunks mode n e rest
    pure (serializeChunk mode n c :: out)

/-- `EncryptRSA(plaintext, n, e)` (R306). -/
def encryptRsa (mode : ChunkSerialization) (plaintext : Text) (n e : Nat) : HostM (List (List Byte)) :=
  let b := utf8Encode plaintext
  let count := ceilDiv b.length chunkMax
  if b.length = 0 then throw .emptyPlaintext
  else if chunkCountMax < count then throw .plaintextTooLong
  else encryptChunks mode n e (chunks count b)

/-- Lower-case hex of `m` without leading zeros, "0" for 0 (R308). -/
def hexOfNat (m : Nat) : Text := if m = 0 then [hexDigit 0] else (digitsBE 16 (bitLen m) m []).map hexDigit

/-- The hex of `m` with a single leading zero nibble if its length is odd (R308). -/
def evenHexOfNat (m : Nat) : Text := if (hexOfNat m).length % 2 = 1 then hexDigit 0 :: hexOfNat m else hexOfNat m

/-- The text of one decrypted chunk (R308): `Utf8Decode(HexToBytes(h))`. -/
def chunkText (policy : Utf8Policy) (m : Nat) : Except HostFailure Text :=
  match hexToBytes (evenHexOfNat m) with
  | .error e => .error e
  | .ok b => utf8Decode policy b

/-- `DecryptRSA(chunks, n, d)` (R308): chunks are checked and decoded one at a time, in order. -/
def decryptRsa (policy : Utf8Policy) (n d : Nat) : List (List Byte) → HostM Text
  | [] => pure []
  | ch :: rest =>
    if ch.length = 0 then throw .emptyChunk
    else do
      let m ← hostModExp (beInt ch) d n
      let t ← hostCheck (chunkText policy m)
      let ts ← decryptRsa policy n d rest
      pure (t ++ ts)

end Sys2Proof.Machine
end

