-- ==== Sys2Proof/Safety.lean ====
section
/-! DEFINITION. What claims call a good state of the CORE and a good pending event. -/

namespace Sys2Proof.Machine

/-! ### The access column of the register map (R33, R34) -/

/-- The registers whose write is ignored while busy and then sets `WIGN` (R45, R90). -/
def Reg.isInput : Reg → Bool
  | .cmd => true
  | .key _ => true
  | .din _ => true
  | .operand .R _ => false
  | .operand _ _ => true
  | _ => false

/-- The read-only registers (R33). -/
def Reg.isReadOnly : Reg → Bool
  | .id => true
  | .param => true
  | .dout _ => true
  | .rkw _ => true
  | .sboxw _ => true
  | .isboxw _ => true
  | .rconw _ => true
  | .operand .R _ => true
  | _ => false

/-- The result registers a command may write at completion, beside `STATUS` (R63). -/
def commandWritesReg (i : Instr) (r : Reg) : Bool :=
  match i, r with
  | .aesKeyexp, .rkw _ => true
  | .aesEnc, .dout _ => true
  | .aesDec, .dout _ => true
  | .modmul, .operand .R _ => true
  | .modexp, .operand .R _ => true
  | _, _ => false

/-! ### The invariant -/

/-- The operand registers hold numbers of `BIG_BITS` bits (R50, R66): the canonical form of what the model keeps as
natural numbers. -/
def CoreState.operandsInRange (c : CoreState) : Prop := ∀ x : Operand, c.operand x < 2 ^ Config.bigBits

/-- `KEYVALID = 1` says that the round-key RAM holds the expansion of the key registers (R43, R182). -/
def CoreState.scheduleValid (c : CoreState) : Prop :=
  c.keyValid = true → c.rk = keyExpansion (stateOfQuad c.key)

/-- `BUSY` and `DONE` are never both 1 (R41, R42). -/
def CoreState.busyNotDone (c : CoreState) : Prop := c.busy = true → c.done = false

/-- While AES_KEYEXP runs `KEYVALID` is 0 (R43, R60). -/
def CoreState.invalidWhileExpanding (c : CoreState) : Prop := c.phase = .busy 0x00000001#32 → c.keyValid = false

/-- The invariant of the CORE. -/
def CoreState.Inv (c : CoreState) : Prop :=
  c.operandsInRange ∧ c.scheduleValid ∧ c.busyNotDone ∧ c.invalidWhileExpanding

/-- The invariant of the machine; the model's own fields are free. -/
def State.Inv (s : State) : Prop := s.core.Inv

/-- An event that is no access from outside the window. -/
def Event.inWindow : Event → Prop
  | .host a => ∃ off, windowOffset a.addr = some off
  | .hardwareReset => True
  | .sequencer => True

end Sys2Proof.Machine
end

