-- ==== Sys2Proof/Certificates/Slice0/Obligations.lean ====
section
/-! DEFINITION. The statements for the provers. Each docstring names the rule of spec/ it formalises. -/

open Sys2Proof Sys2Proof.Machine

/-! ### Encoding -/

/-- R112: each word of the opcode table, written out bit by bit, decodes to its command. -/
def Obligations.TableWordsDecode : Prop :=
  decodeTableWord 32 0b00000000000000000000000000000000 = some .nop ∧
  decodeTableWord 32 0b00000000000000000000000000000001 = some .aesKeyexp ∧
  decodeTableWord 32 0b00000000000000000000000000000010 = some .aesEnc ∧
  decodeTableWord 32 0b00000000000000000000000000000011 = some .aesDec ∧
  decodeTableWord 32 0b00000000000000000000000000010000 = some .modmul ∧
  decodeTableWord 32 0b00000000000000000000000000010001 = some .modexp ∧
  decodeTableWord 32 0b00000000000000000000000000100000 = some .mrRound ∧
  decodeTableWord 32 0b00000000000000000000000000100001 = some .mrTest

/-- R112, R116: a word decodes to a command exactly when it is that command's encoding. -/
def Obligations.DecodeEncodeAgree : Prop :=
  ∀ (v : Word) (i : Instr), decode v = some i ↔ v = encode i

/-- R113: which words are illegal, that such a word issues like any command without clearing `KEYVALID`, and that it
completes with `ERR = 1`, `LASTOP = v[7:0]` and no other change. -/
def Obligations.IllegalWordOnlyReportsIllegal : Prop :=
  ErrCode.illegal.code = 1#4 ∧
  ∀ v : Word,
    (decode v = none ↔
      v.extractLsb' 8 24 ≠ 0#24 ∨
        v.extractLsb' 0 8 ∉ [0x00#8, 0x01#8, 0x02#8, 0x03#8, 0x10#8, 0x11#8, 0x20#8, 0x21#8]) ∧
    (decode v = none → ∀ s : State,
      (s.core.phase = .idle →
        writeAt 0x0010 4 v s =
          { s with core := { s.core with phase := .busy v, done := false }, response := some .ack }) ∧
      (s.core.phase = .busy v →
        sequencerTurn s =
          .next { s with
            core := { s.core with phase := .idle, done := true, err := .illegal, lastop := v.extractLsb' 0 8 } }))

/-! ### Status, control and the register window -/

/-- R40: what a read of `STATUS` answers, idle or busy: its fields; its reset value; and what a host write does. -/
def Obligations.StatusRegister : Prop :=
  (∀ s : State, (readAt 0x000C 4 s).response = some (.data (statusWord s.core))) ∧
  (∀ c : CoreState,
    (statusWord c).getLsbD 0 = c.busy ∧ (statusWord c).getLsbD 1 = c.done ∧
    (statusWord c).getLsbD 2 = c.keyValid ∧ (statusWord c).getLsbD 3 = c.prime ∧
    (statusWord c).getLsbD 4 = c.wign ∧ (statusWord c).extractLsb' 5 3 = 0#3 ∧
    (statusWord c).extractLsb' 8 4 = c.err.code ∧ (statusWord c).extractLsb' 12 4 = 0#4 ∧
    (statusWord c).extractLsb' 16 8 = c.lastop ∧ (statusWord c).extractLsb' 24 8 = 0#8) ∧
  statusWord CoreState.reset = 0x00000000#32 ∧
  (∀ (v : Word) (s : State),
    writeAt 0x000C 4 v s =
      { s with
        core := { s.core with done := s.core.done && !v.getLsbD 1, wign := s.core.wign && !v.getLsbD 4 }
        response := some .ack })

/-- R36, R37: what `ID` and `PARAM` read as, and that neither can be written. -/
def Obligations.IdAndParamRead : Prop :=
  ∀ s : State,
    (readAt 0x0000 4 s).response = some (.data 0x41455331#32) ∧
    (∃ w : Word, (readAt 0x0004 4 s).response = some (.data w) ∧ (w.extractLsb' 0 16).toNat = Config.nw ∧
      w.extractLsb' 16 8 = 0x80#8 ∧ w.extractLsb' 24 8 = 0#8 ∧ (Config.nw = 64 → w = 0x00800040#32)) ∧
    (∀ v : Word, (writeAt 0x0000 4 v s).core = s.core ∧ (writeAt 0x0004 4 v s).core = s.core)

/-- R39, R372: a write to `CTRL`, idle or busy: with bit 1 set every piece of state takes its reset value, a running
command included, and the write completes normally; else bit 0 goes to `IE` and nothing else changes. A read of `CTRL`
answers `IE` in bit 0 and 0 in every other bit (R35, R38), and a read of `CMD` answers 0 (R48), idle or busy. -/
def Obligations.CtrlWrite : Prop :=
  (∀ (v : Word) (s : State),
    (v.getLsbD 1 = true → writeAt 0x0008 4 v s = { s with core := CoreState.reset, response := some .ack }) ∧
    (v.getLsbD 1 = false →
      writeAt 0x0008 4 v s = { s with core := { s.core with ie := v.getLsbD 0 }, response := some .ack })) ∧
  (∀ s : State,
    (readAt 0x0008 4 s).response = some (.data (0#31 ++ BitVec.ofBool s.core.ie)) ∧
    (readAt 0x0010 4 s).response = some (.data 0x00000000#32))

/-- R90: while busy a write to `CMD`, `KEY`, `DIN`, `A`, `B`, `E` or `N` only sets `WIGN`, and writes to `CTRL` and
`STATUS` are accepted; a write to a read-only register is ignored, busy or not, and never sets `WIGN` (R34, R335). That
an ignored write is answered as an accepted one is no sentence of R90: the model deduces it (DEDUCED, log entry 18). -/
def Obligations.WritesWhileBusyAreIgnored : Prop :=
  ∀ (off : Nat) (r : Reg) (v : Word) (s : State), regAt off = some r →
    (s.core.busy = true → r.isInput = true →
      writeAt off 4 v s = { s with core := { s.core with wign := true }, response := some .ack }) ∧
    (s.core.busy = true → r = .ctrl →
      writeAt off 4 v s = { s with core := writeCtrl v s.core, response := some .ack }) ∧
    (s.core.busy = true → r = .status →
      writeAt off 4 v s = { s with core := writeStatus v s.core, response := some .ack }) ∧
    (r.isReadOnly = true → writeAt off 4 v s = { s with response := some .ack })

/-- R83: the mapped offsets are exactly those of the register map, and any access to another is a bus error. -/
def Obligations.RegisterMapIsExact : Prop :=
  (∀ r : Reg, r.isMapped = true → regAt r.offset = some r) ∧
  (∀ (off : Nat) (r : Reg), regAt off = some r → r.isMapped = true ∧ r.offset = off) ∧
  (∀ (off width : Nat) (v : Word) (s : State), (∀ r : Reg, r.isMapped = true → r.offset ≠ off) →
    readAt off width s = { s with response := some (.busError off) } ∧
    writeAt off width v s = { s with response := some (.busError off) })

/-- R84, R85, R86: an access of another width than 4, or misaligned, is answered with an error response and changes no
CORE state, whatever the state. -/
def Obligations.BusErrorChangesNothing : Prop :=
  ∀ (off width : Nat) (v : Word) (s : State), width ≠ 4 ∨ off % 4 ≠ 0 →
    readAt off width s = { s with response := some (.busError off) } ∧
    writeAt off width v s = { s with response := some (.busError off) }

/-- R88: a read changes no CORE state; two reads in a row answer the same, but for the unspecified reads, whose answers
are two draws. -/
def Obligations.ReadsHaveNoSideEffects : Prop :=
  ∀ (off width : Nat) (s : State),
    (readAt off width s).core = s.core ∧
    (∀ r : Reg, accessedReg off width = some r →
      (unspecifiedRead r s.core = false →
        (readAt off width (readAt off width s)).response = (readAt off width s).response) ∧
      (unspecifiedRead r s.core = true →
        (readAt off width s).response = some (.data (Config.freeWord s.busDraws)) ∧
        (readAt off width (readAt off width s)).response = some (.data (Config.freeWord (s.busDraws + 1)))))

/-- R62: while `v` runs, reads of the registers it writes answer a free value (for EVERY value of it); every other read,
and every read of an idle CORE, answers the register's current value. -/
def Obligations.ReadsDuringACommand : Prop :=
  ∀ (off : Nat) (r : Reg) (s : State), regAt off = some r →
    (s.core.phase = .idle → (readAt off 4 s).response = some (.data (readReg r s.core))) ∧
    (∀ v : Word, s.core.phase = .busy v →
      let hit := ((v = 0x00000002#32 ∨ v = 0x00000003#32) ∧ ∃ i, r = .dout i) ∨
        ((v = 0x00000010#32 ∨ v = 0x00000011#32) ∧ ∃ k, r = .operand .R k) ∨
        (v = 0x00000001#32 ∧ ∃ j, r = .rkw j)
      (hit → (readAt off 4 s).response = some (.data (Config.freeWord s.busDraws))) ∧
      (¬ hit → (readAt off 4 s).response = some (.data (readReg r s.core))))

/-- R54 to R57: what the read-only windows of the round keys and the three ROMs read as. -/
def Obligations.ConstantAndRoundKeyWindows : Prop :=
  ∀ s : State,
    (∀ j < 64, (readAt (0x0200 + 4 * j) 4 s).response = some (.data (wordOfBytes (sbox (BitVec.ofNat 8 (4 * j)))
      (sbox (BitVec.ofNat 8 (4 * j + 1))) (sbox (BitVec.ofNat 8 (4 * j + 2))) (sbox (BitVec.ofNat 8 (4 * j + 3)))))) ∧
    (∀ j < 64, (readAt (0x0300 + 4 * j) 4 s).response = some (.data (wordOfBytes (isbox (BitVec.ofNat 8 (4 * j)))
      (isbox (BitVec.ofNat 8 (4 * j + 1))) (isbox (BitVec.ofNat 8 (4 * j + 2)))
      (isbox (BitVec.ofNat 8 (4 * j + 3)))))) ∧
    (readAt 0x0400 4 s).response = some (.data 0x01020408#32) ∧
    (readAt 0x0404 4 s).response = some (.data 0x10204080#32) ∧
    (readAt 0x0408 4 s).response = some (.data 0x1B360000#32) ∧
    (s.core.phase ≠ .busy 0x00000001#32 → ∀ (i : Fin 11) (c : Fin 4),
      (readAt (0x0100 + 4 * (4 * i.val + c.val)) 4 s).response = some (.data (wordOfBytes (s.core.rk[i].at 0 c)
        (s.core.rk[i].at 1 c) (s.core.rk[i].at 2 c) (s.core.rk[i].at 3 c))))

/-- R49, R52, R89: an accepted write to a key or input-block register replaces that word; the key write also clears
`KEYVALID`, and nothing else changes. A read of `KEYi` or `DINi`, idle or busy, answers the word held, so right after
the write the value written (R34, R381); a read of `DOUTi` answers the word held unless AES_ENC or AES_DEC runs (R53,
R62). -/
def Obligations.KeyAndBlockWrites : Prop :=
  (∀ (i : Fin 4) (v : Word) (s : State), s.core.phase = .idle →
    (∃ q : Quad, q.get i = v ∧ (∀ j, j ≠ i → q.get j = s.core.key.get j) ∧
      writeAt (0x0020 + 4 * i.val) 4 v s =
        { s with core := { s.core with key := q, keyValid := false }, response := some .ack }) ∧
    (∃ q : Quad, q.get i = v ∧ (∀ j, j ≠ i → q.get j = s.core.din.get j) ∧
      writeAt (0x0030 + 4 * i.val) 4 v s = { s with core := { s.core with din := q }, response := some .ack }) ∧
    (readAt (0x0020 + 4 * i.val) 4 (writeAt (0x0020 + 4 * i.val) 4 v s)).response = some (.data v) ∧
    (readAt (0x0030 + 4 * i.val) 4 (writeAt (0x0030 + 4 * i.val) 4 v s)).response = some (.data v)) ∧
  (∀ (i : Fin 4) (s : State),
    (readAt (0x0020 + 4 * i.val) 4 s).response = some (.data (s.core.key.get i)) ∧
    (readAt (0x0030 + 4 * i.val) 4 s).response = some (.data (s.core.din.get i)) ∧
    (s.core.phase ≠ .busy 0x00000002#32 → s.core.phase ≠ .busy 0x00000003#32 →
      (readAt (0x0040 + 4 * i.val) 4 s).response = some (.data (s.core.dout.get i))))

/-- R50: a big operand is the sum of its words, least significant first; an accepted write to word `k` replaces bits
[32k+31:32k] of that operand, and nothing else in the CORE. -/
def Obligations.OperandWritesReplaceAWord : Prop :=
  (∀ (c : CoreState) (x : Operand), c.operandsInRange →
    c.operand x = ∑ k ∈ Finset.range Config.nw, (readReg (.operand x k) c).toNat * 2 ^ (32 * k)) ∧
  (∀ (x : Operand) (k : Nat) (v : Word) (s : State), x ≠ .R → k < Config.nw → s.core.phase = .idle →
    ∃ n : Nat, writeAt (x.base + 4 * k) 4 v s = { s with core := s.core.setOperand x n, response := some .ack } ∧
      wordAt n k = v ∧ (∀ j, j ≠ k → wordAt n j = wordAt (s.core.operand x) j))

/-- R80, R103: a host access to `CORE_BASE + off` is an access to offset `off` of the window. (That an access outside
the window stops the model is the model's own choice, log entry 4.) -/
def Obligations.WindowAddressing : Prop :=
  (∀ (off width : Nat) (v : Word) (s : State), off < 0x6000 →
    hostAccess (.read (Config.coreBase + off) width) s = .next (readAt off width s) ∧
    hostAccess (.write (Config.coreBase + off) width v) s = .next (writeAt off width v s)) ∧
  Config.coreBase % 0x8000 = 0 ∧
  (∀ (a : Access) (s : State), a.addr < Config.coreBase ∨ Config.coreBase + 0x6000 ≤ a.addr →
    hostAccess a s = .fault (.outsideWindow a.addr))

/-! ### Issue, completion, interrupt, reset -/

/-- R60: an issue. -/
def Obligations.IssueOfACommand : Prop :=
  ∀ (v : Word) (s : State), s.core.phase = .idle →
    writeAt 0x0010 4 v s =
      { s with
        core := { s.core with
          phase := .busy v
          done := false
          keyValid := if v = 0x00000001#32 then false else s.core.keyValid }
        response := some .ack }

/-- R61: the sequencer's turn completes any running word, with `LASTOP = v[7:0]`, `BUSY = 0`, `DONE = 1`. -/
def Obligations.EveryRunningWordCompletes : Prop :=
  ∀ (v : Word) (s : State), s.core.phase = .busy v →
    ∃ t : State, sequencerTurn s = .next t ∧ t.core.phase = .idle ∧ t.core.busy = false ∧ t.core.done = true ∧
      t.core.lastop = v.extractLsb' 0 8 ∧ (t.core.err = .illegal ↔ decode v = none) ∧
      t.events = s.events ∧ t.response = s.response ∧ t.busDraws = s.busDraws

/-- R340: the interrupt line is the level `CTRL.IE and STATUS.DONE`; a completion asserts it if enabled, in the same
step; an issue, writing 1 to `DONE`, and a reset deassert it; masking does not clear `DONE`. -/
def Obligations.InterruptLevel : Prop :=
  (∀ c : CoreState, irq c = true ↔ c.ie = true ∧ c.done = true) ∧
  (∀ (v : Word) (s t : State), s.core.phase = .busy v → sequencerTurn s = .next t → irq t.core = s.core.ie) ∧
  (∀ (v : Word) (s : State), s.core.phase = .idle → irq (writeAt 0x0010 4 v s).core = false) ∧
  (∀ (v : Word) (s : State), v.getLsbD 1 = true → irq (writeAt 0x000C 4 v s).core = false) ∧
  (∀ (v : Word) (s : State), v.getLsbD 1 = false →
    (writeAt 0x0008 4 v s).core.done = s.core.done ∧
    irq (writeAt 0x0008 4 v s).core = (v.getLsbD 0 && s.core.done)) ∧
  irq CoreState.reset = false

/-- R64: what reset leaves, read through the window. -/
def Obligations.ResetValues : Prop :=
  State.reset.core.phase = .idle ∧ irq State.reset.core = false ∧
  readReg .ctrl State.reset.core = 0#32 ∧ readReg .status State.reset.core = 0#32 ∧
  (∀ i : Fin 4, readReg (.key i) State.reset.core = 0#32 ∧ readReg (.din i) State.reset.core = 0#32 ∧
    readReg (.dout i) State.reset.core = 0#32) ∧
  (∀ j : Fin 44, readReg (.rkw j) State.reset.core = 0#32) ∧
  (∀ (x : Operand) (k : Nat), readReg (.operand x k) State.reset.core = 0#32) ∧
  (∀ (i : Fin 11) (r c : Fin 4), State.reset.core.rk[i].at r c = 0x00#8)

/-- R370: a hardware reset and a soft reset both give every piece of state its reset value, busy or not. -/
def Obligations.BothResetsGiveResetState : Prop :=
  (∀ (s : State) (es : List Event), s.events = .hardwareReset :: es →
    step s = .next { s with core := State.reset.core, events := es }) ∧
  (∀ (s : State) (es : List Event) (v : Word), v.getLsbD 1 = true →
    s.events = .host (.write (Config.coreBase + 0x0008) 4 v) :: es →
    step s = .next { s with core := State.reset.core, events := es, response := some .ack })

/-! ### What a command leaves unchanged, and its errors -/

/-- R63: the frame of every command: each register, flag and field of the machine it does not write. The status word
may change in `BUSY`, `DONE`, `ERR` and `LASTOP`, and in the flags named. -/
def Obligations.CommandFrame : Prop :=
  ∀ (i : Instr) (s t : State), exec i s = .next t →
    t.core.key = s.core.key ∧ t.core.din = s.core.din ∧ t.core.opA = s.core.opA ∧ t.core.opB = s.core.opB ∧
    t.core.opE = s.core.opE ∧ t.core.opN = s.core.opN ∧ t.core.ie = s.core.ie ∧ t.core.wign = s.core.wign ∧
    (i ≠ .aesKeyexp → t.core.rk = s.core.rk ∧ t.core.keyValid = s.core.keyValid) ∧
    (i ≠ .aesEnc → i ≠ .aesDec → t.core.dout = s.core.dout) ∧
    (i ≠ .modmul → i ≠ .modexp → t.core.opR = s.core.opR) ∧
    (i ≠ .mrRound → i ≠ .mrTest → t.core.prime = s.core.prime) ∧
    (i ≠ .mrTest → t.entropyDraws = s.entropyDraws) ∧
    t.events = s.events ∧ t.response = s.response ∧ t.busDraws = s.busDraws

/-- R63: the same frame read through the window: every mapped offset but `STATUS` and the command's result registers
reads as before. -/
def Obligations.CommandFrameThroughTheWindow : Prop :=
  ∀ (i : Instr) (s t : State) (off : Nat) (r : Reg), exec i s = .next t → regAt off = some r →
    off ≠ 0x000C → commandWritesReg i r = false → readReg r t.core = readReg r s.core

/-- R331: the one cause of each command error, and the codes. -/
def Obligations.ErrorCausesAndCodes : Prop :=
  (ErrCode.ok.code = 0#4 ∧ ErrCode.illegal.code = 1#4 ∧ ErrCode.noKey.code = 2#4 ∧ ErrCode.modZero.code = 3#4 ∧
    ErrCode.witness.code = 4#4) ∧
  (∀ (i : Instr) (s t : State), exec i s = .next t → t.core.lastop = opcode i ∧
    t.core.err =
      (match i with
      | .nop => ErrCode.ok
      | .aesKeyexp => ErrCode.ok
      | .mrTest => ErrCode.ok
      | .aesEnc => if s.core.keyValid = false then .noKey else .ok
      | .aesDec => if s.core.keyValid = false then .noKey else .ok
      | .modmul => if s.core.opN = 0 then .modZero else .ok
      | .modexp => if s.core.opN = 0 then .modZero else .ok
      | .mrRound =>
        if 4 ≤ s.core.opN ∧ (s.core.opA < 2 ∨ s.core.opN - 2 < s.core.opA) then .witness else .ok)) ∧
  (∀ (v : Word) (s t : State), s.core.phase = .busy v → decode v = none → sequencerTurn s = .next t →
    t.core.err = .illegal ∧ t.core.lastop = v.extractLsb' 0 8)

/-- R333: a command error is precise: the state after it is the state before plus `ERR`, `LASTOP`, `BUSY`, `DONE`; and
it is not sticky: whatever `ERR` was, the next completion leaves what it leaves. -/
def Obligations.CommandErrorIsPrecise : Prop :=
  ∀ (v : Word) (s t : State), s.core.phase = .busy v → sequencerTurn s = .next t →
    (t.core.err ≠ .ok →
      t = { s with
        core := { s.core with phase := .idle, done := true, err := t.core.err, lastop := v.extractLsb' 0 8 } }) ∧
    (∀ e : ErrCode, sequencerTurn { s with core := { s.core with err := e } } = .next t)

/-! ### The commands -/

/-- R270: NOP completes, and that is all it does. -/
def Obligations.NopCompletes : Prop :=
  ∀ s : State, exec .nop s =
    .next { s with core := { s.core with phase := .idle, done := true, err := .ok, lastop := 0x00#8 } }

/-- R181: AES_KEYEXP clears `KEYVALID` at its issue; at completion it fills the round-key RAM with the expansion of
`KEY0..KEY3`, byte 0 in `KEY0[31:24]`, and sets `KEYVALID`. -/
def Obligations.AesKeyexpExpandsTheKey : Prop :=
  (∀ s : State, s.core.phase = .idle → (writeAt 0x0010 4 0x00000001#32 s).core.keyValid = false) ∧
  (∀ s : State, exec .aesKeyexp s =
    .next { s with core := { s.core with
      phase := .idle, done := true, err := .ok, lastop := 0x01#8
      rk := keyExpansion (stateOfQuad s.core.key), keyValid := true } })

/-- R185: AES_ENC writes `Cipher(DIN, RK)` to `DOUT` with a valid schedule, and fails with `NOKEY` without. -/
def Obligations.AesEncEncryptsTheBlock : Prop :=
  ∀ s : State,
    (s.core.keyValid = true → exec .aesEnc s =
      .next { s with core := { s.core with
        phase := .idle, done := true, err := .ok, lastop := 0x02#8
        dout := quadOfState (cipher (stateOfQuad s.core.din) s.core.rk) } }) ∧
    (s.core.keyValid = false → exec .aesEnc s =
      .next { s with core := { s.core with phase := .idle, done := true, err := .noKey, lastop := 0x02#8 } })

/-- R190: AES_DEC writes `InvCipher(DIN, RK)` to `DOUT` with a valid schedule, and fails with `NOKEY` without. -/
def Obligations.AesDecDecryptsTheBlock : Prop :=
  ∀ s : State,
    (s.core.keyValid = true → exec .aesDec s =
      .next { s with core := { s.core with
        phase := .idle, done := true, err := .ok, lastop := 0x03#8
        dout := quadOfState (invCipher (stateOfQuad s.core.din) s.core.rk) } }) ∧
    (s.core.keyValid = false → exec .aesDec s =
      .next { s with core := { s.core with phase := .idle, done := true, err := .noKey, lastop := 0x03#8 } })

/-- R246: MODMUL writes `(A * B) mod N` to `R`, and fails with `MODZERO` when `N = 0`. -/
def Obligations.ModmulWritesTheProduct : Prop :=
  ∀ s : State,
    (s.core.opN ≠ 0 → exec .modmul s =
      .next { s with core := { s.core with
        phase := .idle, done := true, err := .ok, lastop := 0x10#8
        opR := s.core.opA * s.core.opB % s.core.opN } }) ∧
    (s.core.opN = 0 → exec .modmul s =
      .next { s with core := { s.core with phase := .idle, done := true, err := .modZero, lastop := 0x10#8 } })

/-- R247: MODEXP writes `A^E mod N` to `R`, and fails with `MODZERO` when `N = 0`. -/
def Obligations.ModexpWritesThePower : Prop :=
  ∀ s : State,
    (s.core.opN ≠ 0 → exec .modexp s =
      .next { s with core := { s.core with
        phase := .idle, done := true, err := .ok, lastop := 0x11#8
        opR := s.core.opA ^ s.core.opE % s.core.opN } }) ∧
    (s.core.opN = 0 → exec .modexp s =
      .next { s with core := { s.core with phase := .idle, done := true, err := .modZero, lastop := 0x11#8 } })

/-- The square-and-multiply loop (R242) computes `a^e mod n`, and its corner cases: the law of R245, which the spec
marks as derived. -/
def Obligations.ModExpIsThePower : Prop :=
  ∀ a e n : Nat, 1 ≤ n →
    modExp a e n = a ^ e % n ∧ modExp a e n = modExp (a % n) e n ∧ (2 ≤ n → modExp a 0 n = 1) ∧ modExp a e 1 = 0 ∧
      (1 ≤ e → modExp 0 e n = 0)

/-- R210: `SD(n)` decomposes `n - 1`; its last sentence, on odd and even `n`, is marked derived in the spec. -/
def Obligations.SdDecomposes : Prop :=
  ∀ n : Nat, 2 ≤ n →
    n - 1 = 2 ^ (sd n).1 * (sd n).2 ∧ (sd n).2 % 2 = 1 ∧ (n % 2 = 1 → 3 ≤ n → 1 ≤ (sd n).1) ∧
      (n % 2 = 0 → (sd n).1 = 0 ∧ (sd n).2 = n - 1)

/-- R211: a round passes exactly when `a^d` is 1 or one of `a^d`, its square, …, its `s-1`-fold square is `n - 1`
modulo `n`. -/
def Obligations.RoundPassesExactlyWhen : Prop :=
  ∀ n a : Nat, 4 ≤ n → 2 ≤ a → a ≤ n - 2 →
    (mrRound n a = true ↔
      a ^ (sd n).2 % n = 1 ∨ ∃ j, (j = 0 ∨ j < (sd n).1) ∧ a ^ ((sd n).2 * 2 ^ j) % n = n - 1)

/-- R215: MR_ROUND: the small verdicts, the witness check, and the verdict of the round. -/
def Obligations.MrRoundWritesTheVerdict : Prop :=
  ∀ s : State,
    (s.core.opN < 4 → exec .mrRound s =
      .next { s with core := { s.core with
        phase := .idle, done := true, err := .ok, lastop := 0x20#8
        prime := decide (s.core.opN = 2 ∨ s.core.opN = 3) } }) ∧
    (4 ≤ s.core.opN → (s.core.opA < 2 ∨ s.core.opN - 2 < s.core.opA) → exec .mrRound s =
      .next { s with core := { s.core with phase := .idle, done := true, err := .witness, lastop := 0x20#8 } }) ∧
    (4 ≤ s.core.opN → 2 ≤ s.core.opA → s.core.opA ≤ s.core.opN - 2 → exec .mrRound s =
      .next { s with core := { s.core with
        phase := .idle, done := true, err := .ok, lastop := 0x20#8
        prime := mrRound s.core.opN s.core.opA } })

/-- R219, R220: MR_TEST under every outcome of its draws (the free values are not looked at): each executed round makes
one draw in `2..N-2`, the first failing round ends the test with COMPOSITE, 128 passing rounds give PRIME; no draw for
`N < 4`. -/
def Obligations.MrTestWritesTheVerdict : Prop :=
  ∀ s : State,
    let w := fun k => drawIn 2 (s.core.opN - 2) (Config.entropy (s.entropyDraws + k))
    let result := fun (p : Bool) (drawn : Nat) =>
      (Host.Outcome.next { s with
        core := { s.core with phase := .idle, done := true, err := .ok, lastop := 0x21#8, prime := p }
        entropyDraws := s.entropyDraws + drawn } : Host.Outcome State Fault Refusal)
    (s.core.opN < 4 → exec .mrTest s = result (decide (s.core.opN = 2 ∨ s.core.opN = 3)) 0) ∧
    (4 ≤ s.core.opN →
      (∀ k, 2 ≤ w k ∧ w k ≤ s.core.opN - 2) ∧
      ((∀ k < 128, mrRound s.core.opN (w k) = true) → exec .mrTest s = result true 128) ∧
      (∀ j < 128, (∀ k < j, mrRound s.core.opN (w k) = true) → mrRound s.core.opN (w j) = false →
        exec .mrTest s = result false (j + 1)))

/-- The law R214 (a), which the spec takes from general knowledge: a prime `n >= 5` passes the round with every
witness in `2..n-2`. -/
def Obligations.PrimePassesEveryRound : Prop :=
  ∀ n a : Nat, Nat.Prime n → 5 ≤ n → 2 ≤ a → a ≤ n - 2 → mrRound n a = true

/-- The verdict laws of MR_TEST over every sequence `ω` of what the entropy source gives: the laws of R221, which the
spec marks as derived. -/
def Obligations.MrTestVerdictLaws : Prop :=
  (∀ (n : Nat) (ω : Nat → Nat), Nat.Prime n → (mrTest n ω).1 = true) ∧
  (∀ n : Nat, ¬ Nat.Prime n → 4 ≤ n →
    (∃ ω, (mrTest n ω).1 = false) ∧
    (∀ ω, (mrTest n ω).1 = true ↔ ∀ k < 128, mrRound n (drawIn 2 (n - 2) (ω k)) = true)) ∧
  (∃ ω : Nat → Nat, (∀ k, drawIn 2 339 (ω k) = 4) ∧ (mrTest 341 ω).1 = true)

/-! ### The AES datapath -/

/-- The inverse S-box is the inverse permutation of the S-box: the law of R144, which the spec marks as derived. -/
def Obligations.InverseSboxInvertsSbox : Prop :=
  ∀ x : Byte, isbox (sbox x) = x ∧ sbox (isbox x) = x

/-- Each S-box entry is the affine image of the multiplicative inverse in GF(2^8): the construction of R145, which the
spec takes from general knowledge. -/
def Obligations.SboxIsAffineOfInverse : Prop :=
  ∀ x : Byte, ∃ y : Byte, (x = 0x00#8 → y = 0x00#8) ∧ (x ≠ 0x00#8 → gmul x y = 0x01#8) ∧
    sbox x = y ^^^ y.rotateLeft 1 ^^^ y.rotateLeft 2 ^^^ y.rotateLeft 3 ^^^ y.rotateLeft 4 ^^^ 0x63#8

/-- R146: the round constants double in GF(2^8), and their ten values (marked derived in the spec). -/
def Obligations.RoundConstantsDouble : Prop :=
  rcon 0 = 0x01#8 ∧ (∀ i, i < 9 → rcon (i + 1) = xtime (rcon i)) ∧
  (List.range 10).map rcon =
    [0x01#8, 0x02#8, 0x04#8, 0x08#8, 0x10#8, 0x20#8, 0x40#8, 0x80#8, 0x1B#8, 0x36#8]

/-- R154: MixColumns, written out for one column, and its fixed points. -/
def Obligations.MixColumnsFormula : Prop :=
  (∀ (s : AesState) (c : Fin 4),
    (mixColumns s).at 0 c = gmul 0x02#8 (s.at 0 c) ^^^ gmul 0x03#8 (s.at 1 c) ^^^ s.at 2 c ^^^ s.at 3 c ∧
    (mixColumns s).at 1 c = s.at 0 c ^^^ gmul 0x02#8 (s.at 1 c) ^^^ gmul 0x03#8 (s.at 2 c) ^^^ s.at 3 c ∧
    (mixColumns s).at 2 c = s.at 0 c ^^^ s.at 1 c ^^^ gmul 0x02#8 (s.at 2 c) ^^^ gmul 0x03#8 (s.at 3 c) ∧
    (mixColumns s).at 3 c = gmul 0x03#8 (s.at 0 c) ^^^ s.at 1 c ^^^ s.at 2 c ^^^ gmul 0x02#8 (s.at 3 c)) ∧
  (∀ (s : AesState) (c : Fin 4) (b : Byte), (∀ r, s.at r c = b) → ∀ r, (mixColumns s).at r c = b)

/-- R157: the key schedule, byte by byte. -/
def Obligations.KeyScheduleRecurrence : Prop :=
  ∀ key : AesState,
    (keyExpansion key)[0] = key ∧
    ∀ (r : Nat) (h : r < 10) (i : Fin 4),
      ((keyExpansion key)[r + 1]).at i 0 =
        ((keyExpansion key)[r]).at i 0 ^^^ sbox (((keyExpansion key)[r]).at (i + 1) 3) ^^^
          (if i = 0 then rcon r else 0x00#8) ∧
      ∀ c : Fin 4, c ≠ 0 →
        ((keyExpansion key)[r + 1]).at i c =
          ((keyExpansion key)[r + 1]).at i (c - 1) ^^^ ((keyExpansion key)[r]).at i c

/-- R160 (a), the source's known answer, and (b), which the spec marks as derived: the inverse cipher inverts the
cipher, under any round keys. -/
def Obligations.InverseCipherInvertsCipher : Prop :=
  quadOfState (cipher (stateOfQuad ⟨0x00112233#32, 0x44556677#32, 0x8899AABB#32, 0xCCDDEEFF#32⟩)
      (keyExpansion (stateOfQuad ⟨0x00010203#32, 0x04050607#32, 0x08090A0B#32, 0x0C0D0E0F#32⟩))) =
    ⟨0x69C4E0D8#32, 0x6A7B0430#32, 0xD8CDB780#32, 0x70B4C55A#32⟩ ∧
  ∀ (x : AesState) (rk : Vector AesState 11), invCipher (cipher x rk) rk = x

/-- AES_KEYEXP, AES_ENC, copying `DOUT` to `DIN`, AES_DEC: `DOUT` is the block that was in `DIN`; the law of R191, which
the spec marks as derived. -/
def Obligations.BlockRoundTripThroughTheCore : Prop :=
  ∀ s : State, ∃ s1 s2 s3 : State, exec .aesKeyexp s = .next s1 ∧ exec .aesEnc s1 = .next s2 ∧
    exec .aesDec { s2 with core := { s2.core with din := s2.core.dout } } = .next s3 ∧
    s3.core.err = .ok ∧ s3.core.dout = s.core.din

/-- R183: a key write leaves the round-key RAM and makes a later AES_ENC or AES_DEC fail with `NOKEY`; and in every
state of the invariant AES_ENC and AES_DEC use the expansion of the key now in `KEY0..KEY3`, or fail. -/
def Obligations.OnlyTheCurrentKeyIsUsed : Prop :=
  (∀ (i : Fin 4) (v : Word) (s : State), s.core.phase = .idle →
    (writeAt (0x0020 + 4 * i.val) 4 v s).core.rk = s.core.rk ∧
    ∀ cmd : Instr, cmd = .aesEnc ∨ cmd = .aesDec →
      ∃ t, exec cmd (writeAt (0x0020 + 4 * i.val) 4 v s) = .next t ∧ t.core.err = .noKey) ∧
  (∀ s t : State, s.Inv →
    (exec .aesEnc s = .next t → t.core.err = .noKey ∨
      t.core.dout = quadOfState (cipher (stateOfQuad s.core.din) (keyExpansion (stateOfQuad s.core.key)))) ∧
    (exec .aesDec s = .next t → t.core.err = .noKey ∨
      t.core.dout = quadOfState (invCipher (stateOfQuad s.core.din) (keyExpansion (stateOfQuad s.core.key)))))

/-! ### The machine -/

/-- R61, R116, and the model's own placing of a word (log entry 2): with the sequencer's turn next, a step is the
command that the running word decodes to, run on the state less that turn; and a word placed by `withFetchWord` is the
one the very next step runs, issued as R60 says. -/
def Obligations.StepRunsTheDecodedCommand : Prop :=
  (∀ (v : Word) (i : Instr) (s : State), s.core.phase = .busy v → decode v = some i → i.wellFormed = true →
    (s.events = [] → step s = exec i s) ∧
    (∀ es, s.events = .sequencer :: es → step s = exec i { s with events := es })) ∧
  (∀ (w : Nat) (i : Instr) (s : State), decodeTableWord 32 w = some i →
    step (s.withFetchWord 32 w) = exec i { s with core := { s.core with
      phase := .busy (encode i)
      done := false
      keyValid := if i = .aesKeyexp then false else s.core.keyValid } })

/-- The invariant of the machine holds at reset. -/
def Obligations.InvariantAtReset : Prop := State.reset.Inv

/-- R41, R42, R43, R50, and R182, which the spec marks as derived: every step keeps the invariant: the operands stay
in range, `KEYVALID = 1` means that the RAM holds the expansion of the key registers, `BUSY` and `DONE` are never both
1, and `KEYVALID` is 0 while AES_KEYEXP runs. -/
def Obligations.StepKeepsTheInvariant : Prop :=
  ∀ s t : State, s.Inv → step s = .next t → t.Inv

/-- R330: the CORE never stops: with the next access in the window every step has a next state. -/
def Obligations.TheCoreNeverStops : Prop :=
  ∀ s : State, (∀ e, s.events.head? = some e → e.inWindow) → ∃ t : State, step s = .next t

/-! ### Host procedures -/

/-- Hex encoding is inverted by decoding; decoding by encoding exactly for lower-case input: the law of R294, which the
spec marks as derived. -/
def Obligations.HexRoundTrip : Prop :=
  (∀ b : List Byte, hexToBytes (bytesToHex b) = .ok b) ∧
  (∀ (h : Text) (b : List Byte), hexToBytes h = .ok b →
    (bytesToHex b = h ↔ ∀ c ∈ h, ¬ (65 ≤ c.val.toNat ∧ c.val.toNat ≤ 70)))

/-- `Unpad(Pad(m)) = m`, the law R289 (b), which the spec marks as derived, and the padded length of R282. -/
def Obligations.UnpadInvertsPad : Prop :=
  ∀ m : List Byte, unpad (pad m) = .ok m ∧ (pad m).length = 16 * (m.length / 16 + 1)

/-- `Utf8Decode(Utf8Encode(p)) = p` under either policy, as R289 (a), marked derived in the spec, says. The UTF-8 form
itself is PRESUMED (log entry 12). -/
def Obligations.Utf8RoundTrip : Prop :=
  ∀ (policy : Utf8Policy) (p : Text), utf8Decode policy (utf8Encode p) = .ok p

/-- R295: `MinBytes` is the shortest non-empty big-endian form of a number. -/
def Obligations.MinBytesIsShortest : Prop :=
  ∀ x : Nat, beInt (minBytes x) = x ∧ (minBytes x).length = max 1 ((bitLen x + 7) / 8) ∧
    ∀ b : List Byte, b ≠ [] → beInt b = x → (minBytes x).length ≤ b.length

/-- The hex step of the RSA decryption makes `MinBytes(m)`: the sentence of R308 which the spec marks as derived. -/
def Obligations.DecryptedChunkIsMinBytes : Prop :=
  ∀ m : Nat, hexToBytes (evenHexOfNat m) = .ok (minBytes m)

/-- R303: the extended Euclidean algorithm. -/
def Obligations.ExtEuclidIsBezout : Prop :=
  ∀ a b : Nat, (a : Int) * (extEuclid a b).2.1 + (b : Int) * (extEuclid a b).2.2 = (extEuclid a b).1 ∧
    (extEuclid a b).1 = (Nat.gcd a b : Int)

/-- `(e * d) mod phi = 1` and `0 <= d < phi` for every key pair: the law of R304 which the spec marks as derived; and every
pair that `GenKeyPair` returns, its searches one after the other or by turns (R301), is that of two odd numbers of
exactly `bits / 2` bits (R300, R302). How a procedure drives the machine is the model's choice (log entry 10). -/
def Obligations.KeyPairExponentsInvert : Prop :=
  (∀ (p q : Nat) (k : KeyPair), 3 ≤ p → 3 ≤ q → keyPairOf p q = .ok k →
    k.n = p * q ∧ k.e = 65537 ∧ k.e * k.d % ((p - 1) * (q - 1)) = 1 ∧ k.d < (p - 1) * (q - 1)) ∧
  (∀ (bits : Nat) (mode : SearchMode) (k : KeyPair) (s t : State), 4 ≤ bits → bits % 2 = 0 →
    runHost (genKeyPair bits mode) s = (.ok (some k), t) →
    ∃ p q : Nat, 3 ≤ p ∧ 3 ≤ q ∧ keyPairOf p q = .ok k ∧
      (∀ x, x = p ∨ x = q → x % 2 = 1 ∧ 2 ^ (bits / 2 - 1) ≤ x ∧ x < 2 ^ (bits / 2)))

/-- The law of R248 and R304 which the spec takes from general knowledge: with the key pair of two distinct primes,
MODEXP by the private exponent undoes MODEXP by the public one, for every message below the modulus. -/
def Obligations.RsaRoundTrip : Prop :=
  ∀ (p q m : Nat) (k : KeyPair), Nat.Prime p → Nat.Prime q → p ≠ q → keyPairOf p q = .ok k → m < k.n →
    modExp (modExp m k.e k.n) k.d k.n = m

/-- R385: how many polls a command takes to complete changes nothing of what `CoreRun` answers or leaves. How a procedure
drives the machine is the model's choice (log entry 10). -/
def Obligations.LatencyDoesNotMatter : Prop :=
  ∀ (latency : Nat) (word : Word) (s : State), s.core.phase = .idle →
    runHost (coreRunAfter latency word) s = runHost (coreRun word) s

/-- R280: `HostModExp(a, e, n)` on an idle CORE answers `a^e mod n`, and leaves the operands loaded. How a procedure
drives the machine is the model's choice (log entry 10). -/
def Obligations.HostModExpAnswersThePower : Prop :=
  ∀ (a e n : Nat) (s : State), s.Inv → s.core.phase = .idle → a < 2 ^ Config.bigBits → e < 2 ^ Config.bigBits →
    n < 2 ^ Config.bigBits → n ≠ 0 →
    ∃ t : State, runHost (hostModExp a e n) s = (.ok (a ^ e % n), t) ∧ t.core.phase = .idle ∧ t.core.opA = a ∧
      t.core.opE = e ∧ t.core.opN = n ∧ t.core.opR = a ^ e % n

/-- The law R289 (a), which the spec marks as derived: `DecryptAES(EncryptAES(p, k), k) = p` for every text and every
16-byte key, driven through an idle CORE. How a procedure
drives the machine is the model's choice (log entry 10). -/
def Obligations.AesHostRoundTrip : Prop :=
  ∀ (policy : Utf8Policy) (p : Text) (key : AesKey) (s : State), s.core.phase = .idle →
    (rawKeyBytes key).length = 16 →
    (runHost (do
      let c ← encryptAes p key
      decryptAes policy c key) s).1 = .ok p
end

