-- ==== Sys2Proof/Laws/State.lean ====
section
/-! SUPPORT. One lemma per field per update of the CORE's state, each true by rfl, so that no later proof unfolds a
record update; and the get-after-set lemmas of the register banks. -/

namespace Sys2Proof.Machine

/-! ### `issue` -/

section
variable (v : Word) (c : CoreState)

@[simp] theorem issue_phase : (issue v c).phase = .busy v := rfl
@[simp] theorem issue_ie : (issue v c).ie = c.ie := rfl
@[simp] theorem issue_done : (issue v c).done = false := rfl
@[simp] theorem issue_keyValid : (issue v c).keyValid = if v = 0x00000001#32 then false else c.keyValid := rfl
@[simp] theorem issue_prime : (issue v c).prime = c.prime := rfl
@[simp] theorem issue_wign : (issue v c).wign = c.wign := rfl
@[simp] theorem issue_err : (issue v c).err = c.err := rfl
@[simp] theorem issue_lastop : (issue v c).lastop = c.lastop := rfl
@[simp] theorem issue_key : (issue v c).key = c.key := rfl
@[simp] theorem issue_din : (issue v c).din = c.din := rfl
@[simp] theorem issue_dout : (issue v c).dout = c.dout := rfl
@[simp] theorem issue_rk : (issue v c).rk = c.rk := rfl
@[simp] theorem issue_opA : (issue v c).opA = c.opA := rfl
@[simp] theorem issue_opB : (issue v c).opB = c.opB := rfl
@[simp] theorem issue_opE : (issue v c).opE = c.opE := rfl
@[simp] theorem issue_opN : (issue v c).opN = c.opN := rfl
@[simp] theorem issue_opR : (issue v c).opR = c.opR := rfl

end

/-! ### `complete` -/

section
variable (op : Byte) (e : ErrCode) (c : CoreState)

@[simp] theorem complete_phase : (complete op e c).phase = .idle := rfl
@[simp] theorem complete_ie : (complete op e c).ie = c.ie := rfl
@[simp] theorem complete_done : (complete op e c).done = true := rfl
@[simp] theorem complete_keyValid : (complete op e c).keyValid = c.keyValid := rfl
@[simp] theorem complete_prime : (complete op e c).prime = c.prime := rfl
@[simp] theorem complete_wign : (complete op e c).wign = c.wign := rfl
@[simp] theorem complete_err : (complete op e c).err = e := rfl
@[simp] theorem complete_lastop : (complete op e c).lastop = op := rfl
@[simp] theorem complete_key : (complete op e c).key = c.key := rfl
@[simp] theorem complete_din : (complete op e c).din = c.din := rfl
@[simp] theorem complete_dout : (complete op e c).dout = c.dout := rfl
@[simp] theorem complete_rk : (complete op e c).rk = c.rk := rfl
@[simp] theorem complete_opA : (complete op e c).opA = c.opA := rfl
@[simp] theorem complete_opB : (complete op e c).opB = c.opB := rfl
@[simp] theorem complete_opE : (complete op e c).opE = c.opE := rfl
@[simp] theorem complete_opN : (complete op e c).opN = c.opN := rfl
@[simp] theorem complete_opR : (complete op e c).opR = c.opR := rfl

end

/-! ### `writeStatus` -/

section
variable (v : Word) (c : CoreState)

@[simp] theorem writeStatus_phase : (writeStatus v c).phase = c.phase := rfl
@[simp] theorem writeStatus_ie : (writeStatus v c).ie = c.ie := rfl
@[simp] theorem writeStatus_done : (writeStatus v c).done = (c.done && !v.getLsbD 1) := rfl
@[simp] theorem writeStatus_keyValid : (writeStatus v c).keyValid = c.keyValid := rfl
@[simp] theorem writeStatus_prime : (writeStatus v c).prime = c.prime := rfl
@[simp] theorem writeStatus_wign : (writeStatus v c).wign = (c.wign && !v.getLsbD 4) := rfl
@[simp] theorem writeStatus_err : (writeStatus v c).err = c.err := rfl
@[simp] theorem writeStatus_lastop : (writeStatus v c).lastop = c.lastop := rfl
@[simp] theorem writeStatus_key : (writeStatus v c).key = c.key := rfl
@[simp] theorem writeStatus_din : (writeStatus v c).din = c.din := rfl
@[simp] theorem writeStatus_dout : (writeStatus v c).dout = c.dout := rfl
@[simp] theorem writeStatus_rk : (writeStatus v c).rk = c.rk := rfl
@[simp] theorem writeStatus_opA : (writeStatus v c).opA = c.opA := rfl
@[simp] theorem writeStatus_opB : (writeStatus v c).opB = c.opB := rfl
@[simp] theorem writeStatus_opE : (writeStatus v c).opE = c.opE := rfl
@[simp] theorem writeStatus_opN : (writeStatus v c).opN = c.opN := rfl
@[simp] theorem writeStatus_opR : (writeStatus v c).opR = c.opR := rfl

end

/-! ### Resets and bus errors -/

@[simp] theorem hardwareReset_core (s : State) : (hardwareReset s).core = CoreState.reset := rfl
@[simp] theorem hardwareReset_events (s : State) : (hardwareReset s).events = s.events := rfl
@[simp] theorem hardwareReset_response (s : State) : (hardwareReset s).response = s.response := rfl
@[simp] theorem hardwareReset_busDraws (s : State) : (hardwareReset s).busDraws = s.busDraws := rfl
@[simp] theorem hardwareReset_entropyDraws (s : State) : (hardwareReset s).entropyDraws = s.entropyDraws := rfl

@[simp] theorem raiseBusError_core (off : Nat) (s : State) : (raiseBusError off s).core = s.core := rfl
@[simp] theorem raiseBusError_events (off : Nat) (s : State) : (raiseBusError off s).events = s.events := rfl
@[simp] theorem raiseBusError_response (off : Nat) (s : State) :
    (raiseBusError off s).response = some (.busError off) := rfl
@[simp] theorem raiseBusError_busDraws (off : Nat) (s : State) : (raiseBusError off s).busDraws = s.busDraws := rfl
@[simp] theorem raiseBusError_entropyDraws (off : Nat) (s : State) :
    (raiseBusError off s).entropyDraws = s.entropyDraws := rfl

/-! ### The phase -/

@[simp] theorem busy_issue (v : Word) (c : CoreState) : (issue v c).busy = true := rfl
@[simp] theorem busy_complete (op : Byte) (e : ErrCode) (c : CoreState) : (complete op e c).busy = false := rfl
@[simp] theorem busy_reset : CoreState.reset.busy = false := rfl

theorem busy_of_phase_idle {c : CoreState} (h : c.phase = .idle) : c.busy = false := by
  simp [CoreState.busy, h]

theorem busy_of_phase_busy {c : CoreState} {v : Word} (h : c.phase = .busy v) : c.busy = true := by
  simp [CoreState.busy, h]

theorem phase_of_not_busy {c : CoreState} (h : c.busy = false) : c.phase = .idle := by
  cases hp : c.phase with
  | idle => rfl
  | busy v => simp [busy_of_phase_busy hp] at h

theorem phase_of_busy {c : CoreState} (h : c.busy = true) : ∃ v, c.phase = .busy v := by
  cases hp : c.phase with
  | idle => simp [busy_of_phase_idle hp] at h
  | busy v => exact ⟨v, rfl⟩

/-! ### Register banks and operands -/

theorem Quad.get_set_same (q : Quad) (i : Fin 4) (v : Word) : (q.set i v).get i = v := by
  fin_cases i <;> rfl

theorem Quad.get_set_other (q : Quad) {i j : Fin 4} (v : Word) (h : j ≠ i) : (q.set i v).get j = q.get j := by
  fin_cases i <;> fin_cases j <;> first | rfl | exact absurd rfl h

@[simp] theorem operand_setOperand_same (c : CoreState) (x : Operand) (v : Nat) : (c.setOperand x v).operand x = v := by
  cases x <;> rfl

@[simp] theorem phase_setOperand (c : CoreState) (x : Operand) (v : Nat) : (c.setOperand x v).phase = c.phase := by
  cases x <;> rfl

@[simp] theorem setOperand_operand (c : CoreState) (x : Operand) : c.setOperand x (c.operand x) = c := by
  cases x <;> rfl

@[simp] theorem setOperand_setOperand (c : CoreState) (x : Operand) (u v : Nat) :
    (c.setOperand x u).setOperand x v = c.setOperand x v := by
  cases x <;> rfl

theorem operand_setOperand_other (c : CoreState) {x y : Operand} (v : Nat) (h : y ≠ x) :
    (c.setOperand x v).operand y = c.operand y := by
  cases x <;> cases y <;> first | rfl | exact absurd rfl h

@[simp] theorem operand_complete (op : Byte) (e : ErrCode) (c : CoreState) (x : Operand) :
    (complete op e c).operand x = c.operand x := by
  cases x <;> rfl

@[simp] theorem operand_issue (v : Word) (c : CoreState) (x : Operand) : (issue v c).operand x = c.operand x := by
  cases x <;> rfl

@[simp] theorem operand_writeStatus (v : Word) (c : CoreState) (x : Operand) :
    (writeStatus v c).operand x = c.operand x := by
  cases x <;> rfl

@[simp] theorem operand_reset (x : Operand) : CoreState.reset.operand x = 0 := by
  cases x <;> rfl

end Sys2Proof.Machine
end

