-- ==== Sys2Proof/Laws/Operands.lean ====
section
/-! SUPPORT. What the operand assembly does: bytes and words hold the same data, a word of a big operand is read back
as written, and the write keeps the operand in its range (the canonical form of the CORE's operand registers). -/

namespace Sys2Proof.Machine

/-! ### Bytes, words, States -/

section
variable (b0 b1 b2 b3 : Byte)

@[simp] theorem byteOfWord_wordOfBytes_zero : byteOfWord (wordOfBytes b0 b1 b2 b3) 0 = b0 := by
  apply BitVec.eq_of_toNat_eq
  simp [byteOfWord, wordOfBytes]
  omega

@[simp] theorem byteOfWord_wordOfBytes_one : byteOfWord (wordOfBytes b0 b1 b2 b3) 1 = b1 := by
  apply BitVec.eq_of_toNat_eq
  simp [byteOfWord, wordOfBytes]
  omega

@[simp] theorem byteOfWord_wordOfBytes_two : byteOfWord (wordOfBytes b0 b1 b2 b3) 2 = b2 := by
  apply BitVec.eq_of_toNat_eq
  simp [byteOfWord, wordOfBytes]
  omega

@[simp] theorem byteOfWord_wordOfBytes_three : byteOfWord (wordOfBytes b0 b1 b2 b3) 3 = b3 := by
  apply BitVec.eq_of_toNat_eq
  simp [byteOfWord, wordOfBytes]
  omega

end

@[simp] theorem wordOfBytes_byteOfWord (w : Word) :
    wordOfBytes (byteOfWord w 0) (byteOfWord w 1) (byteOfWord w 2) (byteOfWord w 3) = w := by
  apply BitVec.eq_of_toNat_eq
  simp [byteOfWord, wordOfBytes]
  omega

@[simp] theorem colOfWord_wordOfCol (c : Col) : colOfWord (wordOfCol c) = c := by
  simp [colOfWord, wordOfCol]

@[simp] theorem wordOfCol_colOfWord (w : Word) : wordOfCol (colOfWord w) = w := by
  simp [colOfWord, wordOfCol]

@[simp] theorem stateOfQuad_quadOfState (s : AesState) : stateOfQuad (quadOfState s) = s := by
  simp [stateOfQuad, quadOfState]

@[simp] theorem quadOfState_stateOfQuad (q : Quad) : quadOfState (stateOfQuad q) = q := by
  simp [stateOfQuad, quadOfState]

/-- `S[r][c]` of a State built from a function. -/
@[simp] theorem at_ofFn (f : Fin 4 → Fin 4 → Byte) (r c : Fin 4) : (AesState.ofFn f).at r c = f r c := by
  fin_cases r <;> fin_cases c <;> rfl

/-- Two States with equal bytes are equal. -/
theorem AesState.ext_at {s t : AesState} (h : ∀ r c, s.at r c = t.at r c) : s = t := by
  have e : ∀ u : AesState, AesState.ofFn u.at = u := fun _ => rfl
  rw [← e s, ← e t, show s.at = t.at from funext fun r => funext (h r)]

/-- Round key `i` of an expanded key (R157). -/
@[simp] theorem keyExpansion_getElem (key : AesState) (i : Nat) (h : i < 11) :
    (keyExpansion key)[i] = roundKey key i := by
  simp [keyExpansion]

/-! ### Big operands -/

/-- Replacing a digit of weight `P` in a number of digits below `W` keeps the number below `P * W * D`. -/
theorem replaceDigit_lt {x v P W D : Nat} (hx : x < P * W * D) (hv : v < W) :
    x % P + v * P + x / (P * W) * (P * W) < P * W * D := by
  have hP : 0 < P := Nat.pos_of_ne_zero (by rintro rfl; simp at hx)
  have hlow : x % P < P := Nat.mod_lt _ hP
  have hhigh : x / (P * W) + 1 ≤ D := Nat.div_lt_of_lt_mul hx
  have hmid : x % P + v * P < P * W := by nlinarith
  calc _ < P * W + x / (P * W) * (P * W) := by omega
    _ = P * W * (x / (P * W) + 1) := by ring
    _ ≤ _ := Nat.mul_le_mul_left _ hhigh

/-- A write of word `k < n` keeps an operand of `n` words in its range (R50). -/
theorem setWordAt_lt {x k n : Nat} (v : Word) (hx : x < 2 ^ (32 * n)) (hk : k < n) :
    setWordAt x k v < 2 ^ (32 * n) := by
  have e1 : 2 ^ (32 * (k + 1)) = 2 ^ (32 * k) * 2 ^ 32 := by rw [← pow_add, Nat.mul_succ]
  have e2 : 2 ^ (32 * n) = 2 ^ (32 * k) * 2 ^ 32 * 2 ^ (32 * (n - (k + 1))) := by
    rw [← e1, ← pow_add, ← Nat.mul_add, Nat.add_sub_cancel' hk]
  rw [e2] at hx ⊢
  rw [setWordAt, e1]
  exact replaceDigit_lt hx v.isLt

/-- A word of an operand reads back as written (R50, R381). -/
@[simp] theorem wordAt_setWordAt_same (x k : Nat) (v : Word) : wordAt (setWordAt x k v) k = v := by
  apply BitVec.eq_of_toNat_eq
  have hP : 0 < 2 ^ (32 * k) := by positivity
  have e1 : 2 ^ (32 * (k + 1)) = 2 ^ (32 * k) * 2 ^ 32 := by rw [← pow_add, Nat.mul_succ]
  have h : setWordAt x k v / 2 ^ (32 * k) = v.toNat + x / 2 ^ (32 * (k + 1)) * 2 ^ 32 := by
    rw [setWordAt, e1]
    rw [show x % 2 ^ (32 * k) + v.toNat * 2 ^ (32 * k) + x / (2 ^ (32 * k) * 2 ^ 32) * (2 ^ (32 * k) * 2 ^ 32)
      = x % 2 ^ (32 * k) + 2 ^ (32 * k) * (v.toNat + x / (2 ^ (32 * k) * 2 ^ 32) * 2 ^ 32) by ring]
    rw [Nat.add_mul_div_left _ _ hP, Nat.div_eq_of_lt (Nat.mod_lt _ hP), Nat.zero_add]
  have hv := v.isLt
  simp only [wordAt, BitVec.toNat_ofNat, h]
  omega

@[simp] theorem wordAt_zero (k : Nat) : wordAt 0 k = 0#32 := by
  simp [wordAt]

end Sys2Proof.Machine
end

