-- ==== Sys2Proof/Laws/Ops.lean ====
section
/-! SUPPORT. For each shared operation, what it can do, said once: later proofs cite these and do not unfold it. -/

namespace Sys2Proof.Machine

/-! ### Configuration -/

theorem nw_bounds : 64 ≤ Config.nw ∧ Config.nw ≤ 1024 := by
  unfold Config.nw
  omega

theorem bigBits_eq : Config.bigBits = 32 * Config.nw := rfl

/-! ### Completion and command error -/

theorem finishOk_eq_next {op : Byte} {c : CoreState} {s t : State} :
    finishOk op c s = .next t ↔ t = { s with core := complete op .ok c } := by
  simp only [finishOk, Host.Outcome.next.injEq]
  exact eq_comm

theorem raiseCmdError_eq_next {op : Byte} {e : ErrCode} {s t : State} :
    raiseCmdError op e s = .next t ↔ t = { s with core := complete op e s.core } := by
  simp only [raiseCmdError, Host.Outcome.next.injEq]
  exact eq_comm

/-! ### Writes to registers -/

theorem unlessBusy_of_busy {f : CoreState → CoreState} {c : CoreState} (h : c.busy = true) :
    unlessBusy f c = { c with wign := true } := by
  simp [unlessBusy, h]

theorem unlessBusy_of_idle {f : CoreState → CoreState} {c : CoreState} (h : c.busy = false) :
    unlessBusy f c = f c := by
  simp [unlessBusy, h]

/-- A property that an accepted write and the setting of `WIGN` both give, a write gives. -/
theorem unlessBusy_cases {P : CoreState → Prop} {f : CoreState → CoreState} {c : CoreState}
    (hidle : c.busy = false → P (f c)) (hbusy : c.busy = true → P { c with wign := true }) : P (unlessBusy f c) := by
  cases h : c.busy with
  | false => rw [unlessBusy_of_idle h]; exact hidle h
  | true => rw [unlessBusy_of_busy h]; exact hbusy h

theorem writeCtrl_reset {v : Word} {c : CoreState} (h : v.getLsbD 1 = true) : writeCtrl v c = CoreState.reset := by
  simp only [writeCtrl, h, if_true]

theorem writeCtrl_ie {v : Word} {c : CoreState} (h : v.getLsbD 1 = false) :
    writeCtrl v c = { c with ie := v.getLsbD 0 } := by
  simp only [writeCtrl, h, Bool.false_eq_true, if_false]

/-! ### Host accesses -/

theorem accessedReg_of_width {off width : Nat} (h : width ≠ 4) : accessedReg off width = none := by
  simp [accessedReg, h]

@[simp] theorem accessedReg_four (off : Nat) : accessedReg off 4 = regAt off := rfl

theorem readAt_none {off width : Nat} {s : State} (h : accessedReg off width = none) :
    readAt off width s = raiseBusError off s := by
  simp [readAt, h]

theorem readAt_some {off width : Nat} {r : Reg} {s : State} (h : accessedReg off width = some r)
    (hu : unspecifiedRead r s.core = false) :
    readAt off width s = { s with response := some (.data (readReg r s.core)) } := by
  simp [readAt, h, hu]

theorem readAt_unspecified {off width : Nat} {r : Reg} {s : State} (h : accessedReg off width = some r)
    (hu : unspecifiedRead r s.core = true) :
    readAt off width s =
      { s with response := some (.data (Config.freeWord s.busDraws)), busDraws := s.busDraws + 1 } := by
  simp [readAt, h, hu]

/-- What a read leaves alone: the whole CORE, and the pending events. -/
theorem readAt_frame (off width : Nat) (s : State) :
    (readAt off width s).core = s.core ∧ (readAt off width s).events = s.events ∧
      (readAt off width s).entropyDraws = s.entropyDraws := by
  unfold readAt raiseBusError
  split
  · simp
  · split <;> simp

theorem writeAt_none {off width : Nat} {v : Word} {s : State} (h : accessedReg off width = none) :
    writeAt off width v s = raiseBusError off s := by
  simp [writeAt, h]

theorem writeAt_some {off width : Nat} {v : Word} {r : Reg} {s : State} (h : accessedReg off width = some r) :
    writeAt off width v s = { s with core := writeReg r v s.core, response := some .ack } := by
  simp [writeAt, h]

theorem windowOffset_base_add {off : Nat} (h : off < Config.windowBytes) :
    windowOffset (Config.coreBase + off) = some off := by
  simp [windowOffset, h]

theorem hostAccess_eq_next {a : Access} {s t : State} (h : hostAccess a s = .next t) :
    ∃ off, windowOffset a.addr = some off ∧ t = accessAt off a s := by
  unfold hostAccess at h
  split at h
  · cases h
  · next off heq => exact ⟨off, heq, by simpa using h.symm⟩

end Sys2Proof.Machine
end

