-- ==== Sys2Proof/Laws/Step.lean ====
section
/-! SUPPORT. What a command, the sequencer's turn and a step can do, said once. -/

namespace Sys2Proof.Machine

/-- The square-and-multiply loop keeps its accumulator below the modulus (R240). -/
theorem modExpLoop_lt {n : Nat} (hn : n ≠ 0) :
    ∀ (fuel acc base e : Nat), acc < n → modExpLoop fuel acc base e n < n := by
  intro fuel
  induction fuel with
  | zero => intro acc _ _ h; exact h
  | succ k ih =>
    intro acc base e h
    rw [modExpLoop]
    split
    · exact h
    · refine ih _ _ _ ?_
      split
      · exact Nat.mod_lt _ (Nat.pos_of_ne_zero hn)
      · exact h

/-- `ModExp` answers a remainder (R240, R242). -/
theorem modExp_lt {n : Nat} (hn : n ≠ 0) (a e : Nat) : modExp a e n < n :=
  modExpLoop_lt hn _ _ _ _ (Nat.mod_lt _ (Nat.pos_of_ne_zero hn))

/-- `ModMul` answers a remainder (R240, R241). -/
theorem modMul_lt {n : Nat} (hn : n ≠ 0) (a b : Nat) : modMul a b n < n := Nat.mod_lt _ (Nat.pos_of_ne_zero hn)

/-- What a command can do: it completes, with its opcode in `LASTOP`, from some contents `c` of the CORE that differ
from those at issue in its results only. -/
theorem exec_next (i : Instr) (s : State) :
    ∃ e c d, exec i s = .next { s with core := complete (opcode i) e c, entropyDraws := d } ∧
      (e ≠ .ok → c = s.core ∧ d = s.entropyDraws) ∧
      (c = s.core ∨
        (i = .aesKeyexp ∧ c = { s.core with rk := keyExpansion (stateOfQuad s.core.key), keyValid := true }) ∨
        ((i = .aesEnc ∨ i = .aesDec) ∧ ∃ q, c = { s.core with dout := q }) ∨
        ((i = .modmul ∨ i = .modexp) ∧ ∃ r < s.core.opN, c = { s.core with opR := r }) ∨
        ((i = .mrRound ∨ i = .mrTest) ∧ ∃ p, c = { s.core with prime := p })) := by
  cases i with
  | nop => exact ⟨.ok, s.core, s.entropyDraws, rfl, by simp, .inl rfl⟩
  | aesKeyexp => exact ⟨.ok, _, s.entropyDraws, rfl, by simp, .inr (.inl ⟨rfl, rfl⟩)⟩
  | aesEnc =>
    cases h : s.core.keyValid with
    | false => exact ⟨.noKey, s.core, s.entropyDraws, by simp [exec, execAesEnc, blockCommand, h, raiseCmdError, opcode],
        by simp, .inl rfl⟩
    | true => exact ⟨.ok, _, s.entropyDraws, by simp [exec, execAesEnc, blockCommand, h, finishOk, opcode]; rfl,
        by simp, .inr (.inr (.inl ⟨.inl rfl, _, rfl⟩))⟩
  | aesDec =>
    cases h : s.core.keyValid with
    | false => exact ⟨.noKey, s.core, s.entropyDraws, by simp [exec, execAesDec, blockCommand, h, raiseCmdError, opcode],
        by simp, .inl rfl⟩
    | true => exact ⟨.ok, _, s.entropyDraws, by simp [exec, execAesDec, blockCommand, h, finishOk, opcode]; rfl,
        by simp, .inr (.inr (.inl ⟨.inr rfl, _, rfl⟩))⟩
  | modmul =>
    by_cases h : s.core.opN = 0
    · exact ⟨.modZero, s.core, s.entropyDraws, by simp [exec, execModmul, modCommand, h, raiseCmdError, opcode],
        by simp, .inl rfl⟩
    · exact ⟨.ok, _, s.entropyDraws, by simp [exec, execModmul, modCommand, h, finishOk, opcode]; rfl,
        by simp, .inr (.inr (.inr (.inl ⟨.inl rfl, _, modMul_lt h _ _, rfl⟩)))⟩
  | modexp =>
    by_cases h : s.core.opN = 0
    · exact ⟨.modZero, s.core, s.entropyDraws, by simp [exec, execModexp, modCommand, h, raiseCmdError, opcode],
        by simp, .inl rfl⟩
    · exact ⟨.ok, _, s.entropyDraws, by simp [exec, execModexp, modCommand, h, finishOk, opcode]; rfl,
        by simp, .inr (.inr (.inr (.inl ⟨.inr rfl, _, modExp_lt h _ _, rfl⟩)))⟩
  | mrRound =>
    by_cases h : s.core.opN < 4
    · exact ⟨.ok, _, s.entropyDraws, by simp only [exec, execMrRound, h, if_true, finishOk, opcode]; rfl,
        by simp, .inr (.inr (.inr (.inr ⟨.inl rfl, _, rfl⟩)))⟩
    · by_cases w : s.core.opA < 2 ∨ s.core.opN - 2 < s.core.opA
      · exact ⟨.witness, s.core, s.entropyDraws,
          by simp only [exec, execMrRound, h, if_false, w, if_true, raiseCmdError, opcode], by simp, .inl rfl⟩
      · exact ⟨.ok, _, s.entropyDraws, by simp only [exec, execMrRound, h, if_false, w, finishOk, opcode]; rfl,
          by simp, .inr (.inr (.inr (.inr ⟨.inl rfl, _, rfl⟩)))⟩
  | mrTest => exact ⟨.ok, _, _, rfl, by simp, .inr (.inr (.inr (.inr ⟨.inr rfl, _, rfl⟩)))⟩

theorem sequencerTurn_idle {s : State} (h : s.core.phase = .idle) : sequencerTurn s = .next s := by
  simp [sequencerTurn, h]

theorem sequencerTurn_illegal {s : State} {v : Word} (h : s.core.phase = .busy v) (hd : decode v = none) :
    sequencerTurn s = raiseCmdError (opField v) .illegal s := by
  simp [sequencerTurn, h, hd, execIllegal]

theorem sequencerTurn_legal {s : State} {v : Word} {i : Instr} (h : s.core.phase = .busy v)
    (hd : decode v = some i) : sequencerTurn s = exec i s := by
  simp [sequencerTurn, h, hd]

/-- What the sequencer's turn can do. -/
theorem sequencerTurn_cases (s : State) :
    (s.core.phase = .idle ∧ sequencerTurn s = .next s) ∨
      (∃ v, s.core.phase = .busy v ∧ decode v = none ∧
        sequencerTurn s = .next { s with core := complete (opField v) .illegal s.core }) ∨
      (∃ v i, s.core.phase = .busy v ∧ decode v = some i ∧ sequencerTurn s = exec i s) := by
  cases hp : s.core.phase with
  | idle => exact .inl ⟨rfl, sequencerTurn_idle hp⟩
  | busy v =>
    cases hd : decode v with
    | none => exact .inr (.inl ⟨v, rfl, hd, sequencerTurn_illegal hp hd⟩)
    | some i => exact .inr (.inr ⟨v, i, rfl, hd, sequencerTurn_legal hp hd⟩)

/-- What a step can do. -/
theorem step_cases (s : State) :
    (s.events = [] ∧ step s = sequencerTurn s) ∨
      (∃ es, s.events = .sequencer :: es ∧ step s = sequencerTurn { s with events := es }) ∨
      (∃ es, s.events = .hardwareReset :: es ∧ step s = .next (hardwareReset { s with events := es })) ∨
      (∃ a es, s.events = .host a :: es ∧ step s = hostAccess a { s with events := es }) := by
  cases h : s.events with
  | nil => exact .inl ⟨rfl, by simp [step, nextEvent, h]⟩
  | cons e es =>
    cases e with
    | sequencer => exact .inr (.inl ⟨es, rfl, by simp [step, nextEvent, h, handleEvent]⟩)
    | hardwareReset => exact .inr (.inr (.inl ⟨es, rfl, by simp [step, nextEvent, h, handleEvent]⟩))
    | host a => exact .inr (.inr (.inr ⟨a, es, rfl, by simp [step, nextEvent, h, handleEvent]⟩))

end Sys2Proof.Machine
end

