-- ==== Sys2Proof/Laws/Host.lean ====
section
/-! SUPPORT. What a host procedure's parts do, said once. -/

namespace Sys2Proof.Machine

@[simp] theorem runHost_pure {α : Type} (a : α) (s : State) : runHost (pure a : HostM α) s = (.ok a, s) := rfl

@[simp] theorem runHost_throw {α : Type} (e : HostFailure) (s : State) :
    runHost (throw e : HostM α) s = (.error e, s) := rfl

@[simp] theorem runHost_get (s : State) : runHost (get : HostM State) s = (.ok s, s) := rfl

@[simp] theorem runHost_set (s t : State) : runHost (set t : HostM PUnit) s = (.ok ⟨⟩, t) := rfl

/-- A sequence of two procedures: the second runs on what the first leaves, if the first answers. -/
theorem runHost_bind {α β : Type} (p : HostM α) (f : α → HostM β) (s : State) :
    runHost (p >>= f) s =
      (match runHost p s with
      | (.ok a, t) => runHost (f a) t
      | (.error e, t) => (.error e, t)) := by
  show (ExceptT.bind p f).run.run s = _
  simp only [runHost, ExceptT.bind, ExceptT.run, ExceptT.mk, StateT.run, StateT.bind, bind]
  rcases p s with ⟨r, t⟩
  cases r <;> rfl

theorem runHost_bind_ok {α β : Type} {p : HostM α} {f : α → HostM β} {s t : State} {a : α}
    (h : runHost p s = (.ok a, t)) : runHost (p >>= f) s = runHost (f a) t := by
  rw [runHost_bind, h]

/-- A write to a mapped register is acknowledged (R22, R103). -/
theorem runHost_hostWrite {off : Nat} {r : Reg} (v : Word) (s : State) (h : regAt off = some r) :
    runHost (hostWrite off v) s = (.ok (), { s with core := writeReg r v s.core, response := some .ack }) := by
  simp [hostWrite, runHost_bind, writeAt_some ((accessedReg_four off).trans h)]

/-- A specified read of a mapped register answers its value (R22, R103). -/
theorem runHost_hostRead {off : Nat} {r : Reg} {s : State} (h : regAt off = some r)
    (hu : unspecifiedRead r s.core = false) :
    runHost (hostRead off) s = (.ok (readReg r s.core), { s with response := some (.data (readReg r s.core)) }) := by
  simp only [hostRead, runHost_bind, runHost_get, readAt_some ((accessedReg_four off).trans h) hu, runHost_set,
    runHost_pure]

/-- The sequencer's turn in a procedure. -/
theorem runHost_letSequencerMove {s t : State} (h : sequencerTurn s = .next t) :
    runHost letSequencerMove s = (.ok (), t) := by
  simp only [letSequencerMove, runHost_bind, runHost_get, h, runHost_set]

/-- What `CoreRun` does on an idle CORE (R280): issue, completion, and one poll, which answers the status word or fails
with its error code. -/
theorem runHost_coreRun {word : Word} {s t : State} (hp : s.core.phase = .idle)
    (ht : sequencerTurn { s with core := issue word s.core, response := some .ack } = .next t) :
    runHost (coreRun word) s =
      (if (statusWord t.core).extractLsb' 8 4 ≠ 0#4 then .error (.coreError ((statusWord t.core).extractLsb' 8 4))
        else .ok (statusWord t.core), { t with response := some (.data (statusWord t.core)) }) := by
  have hw : runHost (hostWrite 0x0010 word) s = (.ok (), { s with core := issue word s.core, response := some .ack }) := by
    rw [runHost_hostWrite (r := .cmd) word s rfl, writeReg, unlessBusy_of_idle (busy_of_phase_idle hp)]
  have hu : unspecifiedRead .status t.core = false := by
    unfold unspecifiedRead
    split <;> rfl
  have hr := runHost_hostRead (off := 0x000C) (r := .status) rfl hu
  have hpoll : runHost (pollUntilIdle 0) { s with core := issue word s.core, response := some .ack } =
      (.ok (statusWord t.core), { t with response := some (.data (statusWord t.core)) }) := by
    rw [pollUntilIdle, runHost_bind_ok (runHost_letSequencerMove ht), hr, readReg]
  rw [coreRun, coreRunAfter, runHost_bind_ok hw, runHost_bind_ok hpoll]
  split <;> rfl

/-! ### Loading a big operand -/

/-- The number whose low `k` words are those of `x` and whose other words are those of `y`. -/
def lowWordsOf (x y k : Nat) : Nat := x % 2 ^ (32 * k) + y / 2 ^ (32 * k) * 2 ^ (32 * k)

theorem lowWordsOf_zero (x y : Nat) : lowWordsOf x y 0 = y := by simp [lowWordsOf, Nat.mod_one]

theorem lowWordsOf_all {x y n : Nat} (hx : x < 2 ^ (32 * n)) (hy : y < 2 ^ (32 * n)) : lowWordsOf x y n = x := by
  simp [lowWordsOf, Nat.mod_eq_of_lt hx, Nat.div_eq_of_lt hy]

/-- Writing word `k` of `x` makes one more word that of `x` (R50). -/
theorem setWordAt_lowWordsOf (x y k : Nat) :
    setWordAt (lowWordsOf x y k) k (wordAt x k) = lowWordsOf x y (k + 1) := by
  have hP : 0 < 2 ^ (32 * k) := by positivity
  have e1 : 2 ^ (32 * (k + 1)) = 2 ^ (32 * k) * 2 ^ 32 := by rw [← pow_add, Nat.mul_succ]
  simp only [setWordAt, lowWordsOf, wordAt, BitVec.toNat_ofNat, e1]
  generalize 2 ^ (32 * k) = P at hP ⊢
  have hlow : (x % P + y / P * P) % P = x % P := by
    rw [Nat.add_mul_mod_self_right, Nat.mod_mod]
  have hhigh : (x % P + y / P * P) / P = y / P := by
    rw [Nat.add_mul_div_right _ _ hP, Nat.div_eq_of_lt (Nat.mod_lt _ hP), Nat.zero_add]
  rw [hlow, ← Nat.div_div_eq_div_mul, hhigh, Nat.div_div_eq_div_mul, Nat.mod_mul, Nat.mul_comm P (x / P % 2 ^ 32)]

/-- The offset of a mapped operand word (R33, R83). -/
theorem regAt_operand (x : Operand) {k : Nat} (h : k < Config.nw) : regAt (x.base + 4 * k) = some (.operand x k) := by
  have hb := nw_bounds
  have base : x.base = 0x1000 ∨ x.base = 0x2000 ∨ x.base = 0x3000 ∨ x.base = 0x4000 ∨ x.base = 0x5000 := by
    cases x <;> decide
  have hk : (x.base + 4 * k) % 0x1000 / 4 = k := by omega
  have hr : operandRegion ((x.base + 4 * k) / 0x1000) = some x := by
    cases x <;> simp only [Operand.base] <;> [rw [show (0x1000 + 4 * k) / 0x1000 = 1 by omega];
      rw [show (0x2000 + 4 * k) / 0x1000 = 2 by omega]; rw [show (0x3000 + 4 * k) / 0x1000 = 3 by omega];
      rw [show (0x4000 + 4 * k) / 0x1000 = 4 by omega]; rw [show (0x5000 + 4 * k) / 0x1000 = 5 by omega]] <;> rfl
  have ho : operandAt (x.base + 4 * k) = some (.operand x k) := by
    simp only [operandAt, hr, hk, h, if_true]
  simp only [regAt]
  repeat rw [if_neg (by omega)]
  exact ho

/-- An accepted write of an operand word (R50). -/
theorem writeReg_operand {x : Operand} (hx : x ≠ .R) (k : Nat) (v : Word) {c : CoreState} (h : c.phase = .idle) :
    writeReg (.operand x k) v c = c.setOperand x (setWordAt (c.operand x) k v) := by
  have hb := busy_of_phase_idle h
  cases x with
  | R => exact absurd rfl hx
  | A => simp [writeReg, unlessBusy_of_idle hb, CoreState.setOperand, CoreState.operand]
  | B => simp [writeReg, unlessBusy_of_idle hb, CoreState.setOperand, CoreState.operand]
  | E => simp [writeReg, unlessBusy_of_idle hb, CoreState.setOperand, CoreState.operand]
  | N => simp [writeReg, unlessBusy_of_idle hb, CoreState.setOperand, CoreState.operand]

theorem writeWords_operand {X : Operand} (hX : X ≠ .R) (x y : Nat) :
    ∀ (m j : Nat) (s : State), j + m ≤ Config.nw → s.core.phase = .idle → s.core.operand X = lowWordsOf x y j →
      ∃ r, runHost (writeWords (X.base + 4 * j) ((List.range' j m).map (wordAt x))) s =
        (.ok (), { s with core := s.core.setOperand X (lowWordsOf x y (j + m)), response := r }) := by
  intro m
  induction m with
  | zero =>
    intro j s _ _ ho
    refine ⟨s.response, ?_⟩
    simp only [List.range'_zero, List.map_nil, writeWords, Nat.add_zero, runHost_pure, ← ho, setOperand_operand]
  | succ m ih =>
    intro j s hj hp ho
    have hw := runHost_hostWrite (wordAt x j) s (regAt_operand X (k := j) (by omega))
    rw [writeReg_operand hX j _ hp, ho, setWordAt_lowWordsOf] at hw
    obtain ⟨r, hr⟩ := ih (j + 1) { s with core := s.core.setOperand X (lowWordsOf x y (j + 1)), response := some .ack }
      (by omega) ((phase_setOperand _ _ _).trans hp) (operand_setOperand_same _ _ _)
    refine ⟨r, ?_⟩
    rw [List.range'_succ, List.map_cons, writeWords, runHost_bind_ok hw,
      show X.base + 4 * j + 4 = X.base + 4 * (j + 1) by omega, hr, setOperand_setOperand,
      show j + 1 + m = j + (m + 1) by omega]

/-- What `LoadBig` does on an idle CORE: the whole operand is replaced, and nothing else in the CORE (R280, R50). -/
theorem runHost_loadBig {X : Operand} (hX : X ≠ .R) {x : Nat} (hx : x < 2 ^ Config.bigBits) {s : State}
    (hp : s.core.phase = .idle) (ho : s.core.operand X < 2 ^ Config.bigBits) :
    ∃ r, runHost (loadBig X.base x) s = (.ok (), { s with core := s.core.setOperand X x, response := r }) := by
  obtain ⟨r, hr⟩ := writeWords_operand hX x (s.core.operand X) Config.nw 0 s (by omega) hp (lowWordsOf_zero _ _).symm
  refine ⟨r, ?_⟩
  rw [bigBits_eq] at hx ho
  rw [Nat.zero_add, lowWordsOf_all hx ho, Nat.mul_zero, Nat.add_zero, ← List.range_eq_range'] at hr
  rw [loadBig, if_neg (by rw [bigBits_eq]; omega), hr]

/-! ### The two prime searches -/

@[simp] theorem PrimeSearch.turn_found (bits : Nat) (draws : List Nat) (p : Nat) :
    PrimeSearch.turn bits ⟨draws, some p⟩ = pure ⟨draws, some p⟩ := rfl

@[simp] theorem PrimeSearch.turn_exhausted (bits : Nat) : PrimeSearch.turn bits ⟨[], none⟩ = pure ⟨[], none⟩ := rfl

end Sys2Proof.Machine
end

