-- ==== Sys2Proof/Laws/PerInstr.lean ====
section
/-! SUPPORT. Facts of every command as syntax, one lemma per constructor. -/

namespace Sys2Proof.Laws.EncodedWord

/-- The word of a command is well formed, and its high opcode nibble names its engine: 0x0 AES and control, 0x1
modular arithmetic, 0x2 primality (R112, R113). -/
def Statement (i : Instr) : Prop :=
  i.wellFormed = true ∧ wordWellFormed (encode i) = true ∧
    (encode i).extractLsb' 4 4 =
      (match i with
      | .nop => 0x0#4
      | .aesKeyexp => 0x0#4
      | .aesEnc => 0x0#4
      | .aesDec => 0x0#4
      | .modmul => 0x1#4
      | .modexp => 0x1#4
      | .mrRound => 0x2#4
      | .mrTest => 0x2#4)

theorem nop : Statement .nop := by unfold Statement; decide
theorem aesKeyexp : Statement .aesKeyexp := by unfold Statement; decide
theorem aesEnc : Statement .aesEnc := by unfold Statement; decide
theorem aesDec : Statement .aesDec := by unfold Statement; decide
theorem modmul : Statement .modmul := by unfold Statement; decide
theorem modexp : Statement .modexp := by unfold Statement; decide
theorem mrRound : Statement .mrRound := by unfold Statement; decide
theorem mrTest : Statement .mrTest := by unfold Statement; decide

end Sys2Proof.Laws.EncodedWord
end

