-- ==== Sys2Proof/Tests/Slice0.lean ====
section
/-! SUPPORT. The model's own tests. An expected value comes from `95_test_vectors.md` (the row is named) or from the
rule named, never from the model; a `witness_` theorem shows that an obligation's hypotheses can be met, clause by
clause. -/

namespace Sys2Proof.Tests

open Sys2Proof.Machine

/-! ### Helpers -/

/-- A machine with this CORE, all else as after reset. -/
def withCore (c : CoreState) : State := { State.reset with core := c }

/-- What a test looks at after an outcome: the status word and one more field of the CORE. -/
def seen {α : Type} (f : CoreState → α) (o : Host.Outcome State Fault Refusal) : Option (Word × α) :=
  match o with
  | .next t => some (statusWord t.core, f t.core)
  | .fault _ => none
  | .refused _ => none

/-- The key of the known answer. -/
def katKey : Quad := ⟨0x00010203#32, 0x04050607#32, 0x08090A0B#32, 0x0C0D0E0F#32⟩

/-- The CORE after AES_KEYEXP of a key, with a block in `DIN`. -/
def expanded (key din : Quad) : CoreState :=
  { CoreState.reset with key := key, din := din, rk := keyExpansion (stateOfQuad key), keyValid := true }

/-- The CORE with the operands of a modular command. -/
def operands (a b e n : Nat) : CoreState := { CoreState.reset with opA := a, opB := b, opE := e, opN := n }

/-- An idle reset CORE in which the word `v` was issued. -/
def running (v : Word) : State := withCore (issue v CoreState.reset)

/-! ### Well-formedness: a word with a reserved bit, a reserved opcode -/

theorem test_wellFormed_refuses_reserved_bit :
    reservedBitsZero 0x00000100#32 = false ∧ wordWellFormed 0x00000100#32 = false := by decide

theorem test_wellFormed_refuses_reserved_opcode :
    opcodeListed 0x00000004#32 = false ∧ wordWellFormed 0x00000004#32 = false := by decide

theorem test_wellFormed_accepts_last_opcode : wordWellFormed 0x00000021#32 = true := by decide

/-! ### Decoding: each command's word, bit by bit (R110, R112); reserved words refused (V-CTL-3 to V-CTL-9) -/

theorem test_decode_nop : decode 0b00000000000000000000000000000000#32 = some .nop := by decide
theorem test_decode_aesKeyexp : decode 0b00000000000000000000000000000001#32 = some .aesKeyexp := by decide
theorem test_decode_aesEnc : decode 0b00000000000000000000000000000010#32 = some .aesEnc := by decide
theorem test_decode_aesDec : decode 0b00000000000000000000000000000011#32 = some .aesDec := by decide
theorem test_decode_modmul : decode 0b00000000000000000000000000010000#32 = some .modmul := by decide
theorem test_decode_modexp : decode 0b00000000000000000000000000010001#32 = some .modexp := by decide
theorem test_decode_mrRound : decode 0b00000000000000000000000000100000#32 = some .mrRound := by decide
theorem test_decode_mrTest : decode 0b00000000000000000000000000100001#32 = some .mrTest := by decide

theorem test_decode_refuses_reserved_words :
    [0x00000101#32, 0x000000FF#32, 0x80000002#32, 0x00000004#32, 0x00000012#32, 0x0000001F#32, 0x00000022#32,
      0x00000030#32, 0x00000100#32, 0xFFFFFFFF#32].all (fun v => (decode v).isNone) = true := by decide

/-! ### The datapath (V-GF, V-TR, V-ROM) -/

/-- V-GF-1, V-GF-5, V-GF-4. -/
theorem test_gmul : gmul 0x57#8 0x83#8 = 0xC1#8 ∧ gmul 0xFF#8 0xFF#8 = 0x13#8 ∧ gmul 0x80#8 0x02#8 = 0x1B#8 := by decide

/-- V-TR-1. -/
theorem test_shiftRows :
    quadOfState (shiftRows (stateOfQuad katKey)) = ⟨0x00050A0F#32, 0x04090E03#32, 0x080D0207#32, 0x0C01060B#32⟩ := by
  decide +kernel

/-- V-TR-3, V-TR-4, V-TR-6, V-TR-7 as the four columns of one State. -/
theorem test_mixColumns :
    quadOfState (mixColumns (stateOfQuad ⟨0xDB135345#32, 0xF20A225C#32, 0xD4D4D4D5#32, 0x2D26314C#32⟩)) =
      ⟨0x8E4DA1BC#32, 0x9FDC589D#32, 0xD5D5D7D6#32, 0x4D7EBDF8#32⟩ := by decide +kernel

/-- V-ROM-4, V-ROM-5, read through the window. -/
theorem test_rom_windows :
    (readAt 0x02FC 4 State.reset).response = some (.data 0xB054BB16#32) ∧
      (readAt 0x0304 4 State.reset).response = some (.data 0x3036A538#32) := by decide +kernel

/-! ### The commands -/

/-- V-CTL-2: NOP keeps `KEYVALID`. -/
theorem test_nop : seen (·.keyValid) (exec .nop (withCore (expanded katKey Quad.zero))) = some (0x00000006#32, true) := by
  decide +kernel

/-- V-CTL-3: an illegal word, run by a step after its issue. -/
theorem test_illegal_word :
    seen (·.keyValid) (step ((withCore (expanded katKey Quad.zero)).withFetchWord 32 0x101)) =
      some (0x00010106#32, true) := by decide +kernel

/-- V-KX-1, the last round key. -/
theorem test_aesKeyexp_kat :
    seen (fun c => quadOfState c.rk[10]) (exec .aesKeyexp (withCore { CoreState.reset with key := katKey })) =
      some (0x00010006#32, ⟨0x13111D7F#32, 0xE3944A17#32, 0xF307A78B#32, 0x4D2B30C5#32⟩) := by decide +kernel

/-- P8: round key 1 of the zero key at `RKW4`. -/
theorem test_aesKeyexp_zero :
    seen (readReg (.rkw 4)) (exec .aesKeyexp State.reset) = some (0x00010006#32, 0x62636363#32) := by decide +kernel

/-- V-AES-5. -/
theorem test_aesEnc :
    seen (·.dout) (exec .aesEnc (withCore (expanded ⟨0x2B7E1516#32, 0x28AED2A6#32, 0xABF71588#32, 0x09CF4F3C#32⟩
        ⟨0x3243F6A8#32, 0x885A308D#32, 0x313198A2#32, 0xE0370734#32⟩))) =
      some (0x00020006#32, ⟨0x3925841D#32, 0x02DC09FB#32, 0xDC118597#32, 0x196A0B32#32⟩) := by decide +kernel

/-- V-AES-9. -/
theorem test_aesEnc_nokey : seen (·.dout) (exec .aesEnc State.reset) = some (0x00020202#32, Quad.zero) := by
  decide +kernel

/-- V-AES-2. -/
theorem test_aesDec :
    seen (·.dout) (exec .aesDec (withCore (expanded katKey
        ⟨0x69C4E0D8#32, 0x6A7B0430#32, 0xD8CDB780#32, 0x70B4C55A#32⟩))) =
      some (0x00030006#32, ⟨0x00112233#32, 0x44556677#32, 0x8899AABB#32, 0xCCDDEEFF#32⟩) := by decide +kernel

/-- V-AES-10. -/
theorem test_aesDec_nokey : seen (·.dout) (exec .aesDec State.reset) = some (0x00030202#32, Quad.zero) := by
  decide +kernel

/-- V-MM-7: the full-width product is exact. -/
theorem test_modmul :
    seen (·.opR) (exec .modmul (withCore (operands (2 ^ 2048 - 1) (2 ^ 2048 - 1) 0 (2 ^ 2048 - 3)))) =
      some (0x00100002#32, 4) := by decide +kernel

/-- V-MM-6. -/
theorem test_modmul_modzero :
    seen (·.opR) (exec .modmul (withCore (operands 3 4 0 0))) = some (0x00100302#32, 0) := by decide +kernel

/-- V-ME-8. -/
theorem test_modexp :
    seen (·.opR) (exec .modexp (withCore (operands (2 ^ 64 - 1) 0 (2 ^ 64 - 1) (2 ^ 61 - 1)))) =
      some (0x00110002#32, 4747561509943) := by decide +kernel

/-- V-ME-11: `R` keeps the result of V-ME-1. -/
theorem test_modexp_modzero :
    seen (·.opR) (exec .modexp (withCore { operands 4 0 13 0 with opR := 445 })) = some (0x00110302#32, 445) := by
  decide +kernel

/-- V-MR-12: the squares 263, 166, 67, 1 do not pass. -/
theorem test_mrRound :
    seen (·.prime) (exec .mrRound (withCore (operands 2 0 0 561))) = some (0x00200002#32, false) := by decide +kernel

/-- V-MR-31: `WITNESS` leaves `PRIME`. -/
theorem test_mrRound_witness :
    seen (·.prime) (exec .mrRound (withCore { operands 1 0 0 2047 with prime := true })) =
      some (0x0020040A#32, true) := by decide +kernel

/-- V-MT-6: the draws 4, 16, 3; the third round fails. -/
theorem test_mrTest_draws : mrTest 341 (fun k => if k = 0 then 2 else if k = 1 then 14 else 1) = (false, 3) := by
  decide +kernel

/-- V-MT-5, V-MT-10: 128 liars. -/
theorem test_mrTest_liars : mrTest 341 (fun _ => 2) = (true, 128) ∧ mrTest 28 (fun _ => 1) = (true, 128) := by
  decide +kernel

/-! ### The bus -/

/-- V-BUS-12. -/
theorem test_status_w1c :
    statusWord (writeStatus 0xFFFFFFFF#32
      { CoreState.reset with done := true, keyValid := true, wign := true, lastop := 0x01#8 }) = 0x00010004#32 := by
  decide

/-- V-BUS-14: a write to `DIN0` while AES_ENC runs. -/
theorem test_write_while_busy :
    (writeAt 0x0030 4 5#32 (running 0x00000002#32)).core.din = Quad.zero ∧
      (writeAt 0x0030 4 5#32 (running 0x00000002#32)).core.wign = true := by decide +kernel

/-- V-BUS-5, V-BUS-6, V-BUS-7. -/
theorem test_bus_errors :
    (readAt 0x0002 4 State.reset).response = some (.busError 0x0002) ∧
      (readAt 0x000C 1 State.reset).response = some (.busError 0x000C) ∧
      (readAt 0x01B0 4 State.reset).response = some (.busError 0x01B0) := by decide +kernel

/-! ### The host's codecs and arithmetic -/

/-- `92_eei_decisions.md` D30: upper case is accepted; R293: characters before length. -/
theorem test_hexToBytes :
    hexToBytes ['A', '3'] = .ok [0xA3#8] ∧ hexToBytes ['z', '0', '0'] = .error .hexChar ∧
      hexToBytes ['0'] = .error .hexOddLength := by refine ⟨rfl, rfl, rfl⟩

/-- R290: an unpaired surrogate is encoded as U+FFFD. -/
theorem test_surrogate : utf8Encode (textOfCodePoints [0xD800]) = utf8Encode [Char.ofNat 0xFFFD] := by decide

/-- `ldbig` of a variable writes its fields (R119): word 1 of 2^32 + 5 is 1. -/
theorem test_field_of_variable : HostExpr.value [(7, 2 ^ 32 + 5)] (.bits 7 63 32) = 1 := by decide

/-- R288, R282: a full block of padding for the empty string; a pad byte of 0. -/
theorem test_padding :
    pad [] = List.replicate 16 0x10#8 ∧ unpad (List.replicate 16 0x00#8) = .error .invalidPadding := by
  refine ⟨by decide, rfl⟩

/-- V-RSA-1. -/
theorem test_keyPair : extEuclid 65537 3120 = (1, -367, 7709) ∧ keyPairOf 61 53 = .ok ⟨3233, 65537, 2753⟩ := by
  refine ⟨by decide +kernel, by rfl⟩

/-! ### Witnesses: the hypotheses of each obligation, met -/

theorem below_bigBits {x : Nat} (h : x < 2 ^ 64) : x < 2 ^ Config.bigBits :=
  Nat.lt_of_lt_of_le h (Nat.pow_le_pow_right (by decide) (by have := nw_bounds; rw [bigBits_eq]; omega))

theorem witness_inv_reset : State.reset.Inv := by
  refine ⟨fun x => ?_, ?_, ?_, ?_⟩
  · cases x <;> exact below_bigBits (by decide)
  · intro h; cases h
  · intro h; cases h
  · intro h; cases h

theorem witness_IllegalWordOnlyReportsIllegal :
    decode 0x00000101#32 = none ∧ decode 0x00000004#32 = none ∧ State.reset.core.phase = .idle ∧
      (running 0x00000101#32).core.phase = .busy 0x00000101#32 := by decide

theorem witness_CtrlWrite : (0x00000003#32).getLsbD 1 = true ∧ (0x00000001#32).getLsbD 1 = false := by decide

theorem witness_WritesWhileBusyAreIgnored :
    (running 0#32).core.busy = true ∧ regAt 0x0010 = some .cmd ∧ regAt 0x002C = some (.key 3) ∧
      regAt 0x0030 = some (.din 0) ∧ regAt 0x10FC = some (.operand .A 63) ∧ regAt 0x4000 = some (.operand .N 0) ∧
      Reg.isInput .cmd = true ∧ Reg.isInput (.key 3) = true ∧ Reg.isInput (.din 0) = true ∧
      Reg.isInput (.operand .A 63) = true ∧ Reg.isInput (.operand .N 0) = true ∧
      regAt 0x0008 = some .ctrl ∧ regAt 0x000C = some .status ∧
      regAt 0x0040 = some (.dout 0) ∧ Reg.isReadOnly (.dout 0) = true ∧
      regAt 0x5000 = some (.operand .R 0) ∧ Reg.isReadOnly (.operand .R 0) = true := by decide +kernel

theorem witness_RegisterMapIsExact :
    Reg.isMapped (.operand .R 63) = true ∧ regAt 0x50FC = some (.operand .R 63) ∧
      (∀ r : Reg, r.isMapped = true → r.offset ≠ 0x0014) := by
  refine ⟨by decide, by decide +kernel, fun r _ => ?_⟩
  cases r with
  | operand x k => cases x <;> simp only [Reg.offset, Operand.base] <;> omega
  | key i => simp only [Reg.offset]; omega
  | din i => simp only [Reg.offset]; omega
  | dout i => simp only [Reg.offset]; omega
  | rkw i => simp only [Reg.offset]; omega
  | sboxw i => simp only [Reg.offset]; omega
  | isboxw i => simp only [Reg.offset]; omega
  | rconw i => simp only [Reg.offset]; omega
  | id => decide
  | param => decide
  | ctrl => decide
  | status => decide
  | cmd => decide

theorem witness_BusErrorChangesNothing : (1 : Nat) ≠ 4 ∧ 0x0002 % 4 ≠ 0 := by decide

theorem witness_ReadsHaveNoSideEffects :
    accessedReg 0x0040 4 = some (.dout 0) ∧ unspecifiedRead (.dout 0) CoreState.reset = false ∧
      unspecifiedRead (.dout 0) (running 0x00000002#32).core = true := by decide +kernel

theorem witness_ReadsDuringACommand :
    regAt 0x004C = some (.dout 3) ∧ regAt 0x5000 = some (.operand .R 0) ∧ regAt 0x01AC = some (.rkw 43) ∧
      regAt 0x1000 = some (.operand .A 0) ∧ State.reset.core.phase = .idle ∧
      (running 0x00000003#32).core.phase = .busy 0x00000003#32 ∧
      (running 0x00000010#32).core.phase = .busy 0x00000010#32 ∧
      (running 0x00000001#32).core.phase = .busy 0x00000001#32 := by decide +kernel

theorem witness_ConstantAndRoundKeyWindows : 63 < 64 ∧ State.reset.core.phase ≠ .busy 0x00000001#32 := by decide

theorem witness_KeyAndBlockWrites :
    State.reset.core.phase = .idle ∧ (running 0x00000001#32).core.phase ≠ .busy 0x00000002#32 ∧
      (running 0x00000001#32).core.phase ≠ .busy 0x00000003#32 := by decide

theorem witness_OperandWritesReplaceAWord :
    CoreState.reset.operandsInRange ∧ Operand.N ≠ .R ∧ 63 < Config.nw ∧ State.reset.core.phase = .idle :=
  ⟨witness_inv_reset.1, by decide, by decide, rfl⟩

theorem witness_WindowAddressing :
    0x5FFC < 0x6000 ∧ Config.coreBase + 0x6000 ≤ (Access.read (Config.coreBase + 0x6000) 4).addr :=
  ⟨by decide, Nat.le_refl _⟩

theorem witness_IssueOfACommand : State.reset.core.phase = .idle := rfl

theorem witness_EveryRunningWordCompletes :
    (running 0x00000021#32).core.phase = .busy 0x00000021#32 ∧
      (running 0x00000100#32).core.phase = .busy 0x00000100#32 := by decide

theorem witness_InterruptLevel :
    ((running 0#32).core.phase = .busy 0#32 ∧ ∃ t, sequencerTurn (running 0#32) = .next t) ∧
      State.reset.core.phase = .idle ∧ (0x00000002#32).getLsbD 1 = true ∧ (0x00000001#32).getLsbD 1 = false :=
  ⟨⟨rfl, _, rfl⟩, rfl, by decide, by decide⟩

theorem witness_BothResetsGiveResetState :
    ({ running 1#32 with events := [.hardwareReset] } : State).events = [.hardwareReset] ∧
      (0x00000002#32).getLsbD 1 = true ∧
      ({ running 1#32 with events := [.host (.write (Config.coreBase + 0x0008) 4 0x00000002#32)] } : State).events =
        [.host (.write (Config.coreBase + 0x0008) 4 0x00000002#32)] := ⟨rfl, by decide, rfl⟩

theorem witness_CommandFrame : ∀ i : Instr, ∃ t, exec i State.reset = .next t := fun i =>
  match exec_next i State.reset with
  | ⟨_, _, _, h, _⟩ => ⟨_, h⟩

theorem witness_CommandFrameThroughTheWindow :
    (∃ t, exec .modexp State.reset = .next t) ∧ regAt 0x0040 = some (.dout 0) ∧
      commandWritesReg .modexp (.dout 0) = false := by
  refine ⟨⟨_, rfl⟩, by decide, by decide⟩

theorem witness_ErrorCausesAndCodes :
    (∃ t, exec .mrRound (withCore (operands 3 0 0 4)) = .next t) ∧
      (running 0x00000004#32).core.phase = .busy 0x00000004#32 ∧ decode 0x00000004#32 = none ∧
      ∃ t, sequencerTurn (running 0x00000004#32) = .next t := ⟨⟨_, rfl⟩, rfl, by decide, _, rfl⟩

theorem witness_CommandErrorIsPrecise :
    (running 0x00000010#32).core.phase = .busy 0x00000010#32 ∧
      ∃ t, sequencerTurn (running 0x00000010#32) = .next t ∧ t.core.err ≠ .ok := ⟨rfl, _, rfl, by decide⟩

theorem witness_AesKeyexpExpandsTheKey : State.reset.core.phase = .idle := rfl

theorem witness_AesEncEncryptsTheBlock :
    (withCore (expanded katKey katKey)).core.keyValid = true ∧ State.reset.core.keyValid = false := ⟨rfl, rfl⟩

theorem witness_AesDecDecryptsTheBlock :
    (withCore (expanded katKey katKey)).core.keyValid = true ∧ State.reset.core.keyValid = false := ⟨rfl, rfl⟩

theorem witness_ModmulWritesTheProduct :
    (withCore (operands 7 8 0 5)).core.opN ≠ 0 ∧ State.reset.core.opN = 0 := by decide

theorem witness_ModexpWritesThePower :
    (withCore (operands 4 0 13 1)).core.opN ≠ 0 ∧ State.reset.core.opN = 0 := by decide

theorem witness_ModExpIsThePower : 1 ≤ 1 ∧ 1 ≤ 2 ∧ 2 ≤ 2 := by decide

theorem witness_SdDecomposes : 2 ≤ 2 ∧ (3 % 2 = 1 ∧ 3 ≤ 3) ∧ 2 % 2 = 0 := by decide

theorem witness_RoundPassesExactlyWhen : 4 ≤ 4 ∧ 2 ≤ 2 ∧ 2 ≤ 4 - 2 := by decide

theorem witness_MrRoundWritesTheVerdict :
    (withCore (operands 0 0 0 3)).core.opN < 4 ∧
      (4 ≤ (withCore (operands 1 0 0 4)).core.opN ∧ (withCore (operands 1 0 0 4)).core.opA < 2) ∧
      (withCore (operands 3 0 0 4)).core.opN - 2 < (withCore (operands 3 0 0 4)).core.opA ∧
      (2 ≤ (withCore (operands 2 0 0 4)).core.opA ∧
        (withCore (operands 2 0 0 4)).core.opA ≤ (withCore (operands 2 0 0 4)).core.opN - 2) := by decide

theorem mrRound_five_passes (x : Nat) : mrRound 5 (drawIn 2 (5 - 2) x) = true := by
  have h : x % 2 = 0 ∨ x % 2 = 1 := by omega
  obtain h | h := h <;> simp only [drawIn, h] <;> decide

theorem mrRound_four_fails (x : Nat) : mrRound 4 (drawIn 2 (4 - 2) x) = false := by
  have h : x % (4 - 2 - 2 + 1) = 0 := by omega
  simp only [drawIn, h]
  decide

/-- Whatever the source gives, 128 rounds pass on 5, and the first fails on 4. -/
theorem witness_MrTestWritesTheVerdict :
    (withCore (operands 0 0 0 3)).core.opN < 4 ∧
      (4 ≤ (withCore (operands 0 0 0 5)).core.opN ∧
        ∀ k < 128, mrRound 5 (drawIn 2 (5 - 2) (Config.entropy (0 + k))) = true) ∧
      (0 < 128 ∧ (∀ k < 0, mrRound 4 (drawIn 2 (4 - 2) (Config.entropy (0 + k))) = true) ∧
        mrRound 4 (drawIn 2 (4 - 2) (Config.entropy (0 + 0))) = false) :=
  ⟨by decide, ⟨by decide, fun _ _ => mrRound_five_passes _⟩, by decide, fun _ h => absurd h (Nat.not_lt_zero _),
    mrRound_four_fails _⟩

theorem witness_PrimePassesEveryRound : Nat.Prime 5 ∧ 5 ≤ 5 ∧ 2 ≤ 2 ∧ 2 ≤ 5 - 2 := by norm_num

theorem witness_MrTestVerdictLaws : Nat.Prime 2 ∧ ¬ Nat.Prime 4 ∧ 4 ≤ 4 := by norm_num

theorem witness_SboxIsAffineOfInverse : gmul 0x53#8 0xCA#8 = 0x01#8 ∧ sbox 0x00#8 = 0x63#8 := by decide +kernel

theorem witness_MixColumnsFormula : ∀ r, AesState.zero.at r 3 = 0x00#8 := by decide

theorem witness_OnlyTheCurrentKeyIsUsed :
    State.reset.core.phase = .idle ∧ State.reset.Inv ∧ (∃ t, exec .aesEnc State.reset = .next t) ∧
      ∃ t, exec .aesDec State.reset = .next t := ⟨rfl, witness_inv_reset, ⟨_, rfl⟩, _, rfl⟩

/-- The invariant in a state whose schedule is valid. -/
theorem witness_inv_expanded : (withCore (expanded katKey Quad.zero)).Inv := by
  refine ⟨fun x => ?_, fun _ => rfl, ?_, ?_⟩
  · cases x <;> exact below_bigBits (by decide)
  · intro h; cases h
  · intro h; cases h

theorem witness_StepRunsTheDecodedCommand :
    ((running 0x00000010#32).core.phase = .busy 0x00000010#32 ∧ decode 0x00000010#32 = some .modmul ∧
        Instr.wellFormed .modmul = true ∧ (running 0x00000010#32).events = [] ∧
        ({ running 0x00000010#32 with events := [.sequencer] } : State).events = [.sequencer]) ∧
      decodeTableWord 32 0x21 = some .mrTest := by decide

theorem witness_StepKeepsTheInvariant : State.reset.Inv ∧ ∃ t, step State.reset = .next t :=
  ⟨witness_inv_reset, _, rfl⟩

theorem witness_TheCoreNeverStops :
    ∀ e, ({ State.reset with events := [.host (.read (Config.coreBase + 0x0003) 1)] } : State).events.head? = some e →
      e.inWindow := by
  intro e h
  cases h
  exact ⟨0x0003, windowOffset_base_add (by decide)⟩

theorem witness_HexRoundTrip :
    hexToBytes ['a', '3'] = .ok [0xA3#8] ∧ hexToBytes ['A', '3'] = .ok [0xA3#8] := ⟨rfl, rfl⟩

theorem witness_MinBytesIsShortest : [0x00#8, 0x00#8] ≠ [] ∧ beInt [0x00#8, 0x00#8] = 0 := by decide

/-- The CORE after MR_TEST of 3 as the host runs it. -/
def testedThree : CoreState := complete 0x21#8 .ok { operands 0 0 0 3 with prime := true }

/-- The host finds 3 prime, from reset and from a CORE that tested 3 before (V-MT-8). -/
theorem probablePrime_three {s : State} (h : s.core = CoreState.reset ∨ s.core = testedThree) :
    ∃ t, runHost (hostIsProbablePrime 3) s = (.ok true, t) ∧ t.core = testedThree := by
  have hp : s.core.phase = .idle := by obtain h | h := h <;> rw [h] <;> rfl
  have ho : s.core.operand .N < 2 ^ Config.bigBits := by
    obtain h | h := h <;> rw [h] <;> exact below_bigBits (by decide)
  obtain ⟨r, hr⟩ := runHost_loadBig (X := .N) (by decide) (x := 3) (below_bigBits (by decide)) hp ho
  have hc : complete 0x21#8 .ok { issue 0x00000021#32 (s.core.setOperand .N 3) with prime := true } = testedThree := by
    obtain h | h := h <;> rw [h] <;> rfl
  have ht : sequencerTurn { s with core := issue 0x00000021#32 (s.core.setOperand .N 3), response := some .ack } =
      .next { s with core := testedThree, response := some .ack } := by
    rw [sequencerTurn_legal (v := 0x00000021#32) (i := .mrTest) rfl (by decide), ← hc]
    rfl
  have hrun := runHost_coreRun (word := 0x00000021#32)
    (s := { s with core := s.core.setOperand .N 3, response := r }) ((phase_setOperand _ _ _).trans hp) ht
  rw [if_neg (show ¬ (statusWord testedThree).extractLsb' 8 4 ≠ 0#4 by decide)] at hrun
  refine ⟨{ s with core := testedThree, response := some (.data (statusWord testedThree)) }, ?_, rfl⟩
  rw [hostIsProbablePrime, runHost_bind_ok (show runHost (loadBig 0x4000 3) _ = _ from hr), runHost_bind_ok hrun,
    runHost_pure]
  exact congrArg (fun b => (Except.ok b, _)) (show (statusWord testedThree).getLsbD 3 = true by decide)

/-- A whole search that finds 3: its one candidate of two bits is 3 (R300). -/
theorem genPrime_three {s : State} (h : s.core = CoreState.reset ∨ s.core = testedThree) (draws : List Nat) :
    ∃ t, runHost (genPrime 2 (0 :: draws)) s = (.ok (some (3, draws)), t) ∧ t.core = testedThree := by
  obtain ⟨t, ht, hc⟩ := probablePrime_three h
  refine ⟨t, ?_, hc⟩
  rw [genPrime, runHost_bind_ok (show runHost (hostIsProbablePrime (primeCandidate 2 0)) s = _ from ht)]
  rfl

theorem turn_three {s : State} (h : s.core = CoreState.reset ∨ s.core = testedThree) :
    ∃ t, runHost (PrimeSearch.turn 2 ⟨[0], none⟩) s = (.ok ⟨[], some 3⟩, t) ∧ t.core = testedThree := by
  obtain ⟨t, ht, hc⟩ := probablePrime_three h
  refine ⟨t, ?_, hc⟩
  rw [PrimeSearch.turn, runHost_bind_ok (show runHost (hostIsProbablePrime (primeCandidate 2 0)) s = _ from ht)]
  rfl

/-- R302 by hand: `p = q = 3`, `phi = 4`, and `65537 mod 4 = 1`, so `d = 1`; in either mode of R301. -/
theorem witness_KeyPairExponentsInvert :
    (3 ≤ 3 ∧ 3 ≤ 53 ∧ keyPairOf 61 53 = .ok ⟨3233, 65537, 2753⟩) ∧ (4 ≤ 4 ∧ 4 % 2 = 0) ∧
      (∃ t, runHost (genKeyPair 4 (.sequential [0, 0])) State.reset = (.ok (some ⟨9, 65537, 1⟩), t)) ∧
      ∃ t, runHost (genKeyPair 4 (.parallel [0] [0] [.q, .p])) State.reset = (.ok (some ⟨9, 65537, 1⟩), t) := by
  refine ⟨⟨by decide, by decide, rfl⟩, by decide, ?_, ?_⟩
  · obtain ⟨t, ht, hc⟩ := genPrime_three (s := State.reset) (.inl rfl) [0]
    obtain ⟨u, hu, -⟩ := genPrime_three (.inr hc) []
    refine ⟨u, ?_⟩
    have hf : runHost (findPrimes 2 (.sequential [0, 0])) State.reset = (.ok (some (3, 3)), u) := by
      rw [findPrimes, searchInSequence, runHost_bind_ok ht]
      simp only
      rw [runHost_bind_ok hu]
      rfl
    rw [genKeyPair, runHost_bind_ok hf]
    rfl
  · obtain ⟨t, ht, hc⟩ := turn_three (s := State.reset) (.inl rfl)
    obtain ⟨u, hu, -⟩ := turn_three (.inr hc)
    refine ⟨u, ?_⟩
    have hf : runHost (findPrimes 2 (.parallel [0] [0] [.q, .p])) State.reset = (.ok (some (3, 3)), u) := by
      rw [findPrimes, searchByTurns, runHost_bind_ok ht, searchByTurns, runHost_bind_ok hu]
      rfl
    rw [genKeyPair, runHost_bind_ok hf]
    rfl

theorem witness_RsaRoundTrip :
    Nat.Prime 61 ∧ Nat.Prime 53 ∧ 61 ≠ 53 ∧ keyPairOf 61 53 = .ok ⟨3233, 65537, 2753⟩ ∧ 3232 < 3233 :=
  ⟨by norm_num, by norm_num, by decide, rfl, by decide⟩

theorem witness_LatencyDoesNotMatter : State.reset.core.phase = .idle := rfl

theorem witness_HostModExpAnswersThePower :
    State.reset.Inv ∧ State.reset.core.phase = .idle ∧ 4 < 2 ^ Config.bigBits ∧ 13 < 2 ^ Config.bigBits ∧
      497 < 2 ^ Config.bigBits ∧ 497 ≠ 0 :=
  ⟨witness_inv_reset, rfl, below_bigBits (by decide), below_bigBits (by decide), below_bigBits (by decide), by decide⟩

/-- The key of V-HAES-4. -/
theorem witness_AesHostRoundTrip :
    State.reset.core.phase = .idle ∧ (rawKeyBytes (.bytes (List.replicate 16 0x59#8))).length = 16 := by decide

end Sys2Proof.Tests
end

section
/-! SUPPORT. The register window and the decoder: which register an offset reaches, which command a word names, and
what an access at a register's offset does. -/

namespace Sys2Proof.Machine

/-! ### Offsets and registers (R33, R83) -/

/-- What holds of a guarded answer, and of every answer of the rest, holds of the answer. -/
theorem of_ite_some_eq {α : Type} {p : Prop} [Decidable p] {a b : α} {rest : Option α} {P : α → Prop}
    (h : (if p then some a else rest) = some b) (hp : p → P a) (hrest : rest = some b → P b) : P b := by
  split at h
  · next hc => exact Option.some.inj h ▸ hp hc
  · exact hrest h

/-- The offset of a bank's register from its index, which counts words from the bank's base. -/
theorem add_index {base off n : Nat} (ha : off % 4 = 0) (hb : base % 4 = 0)
    (h : base ≤ off ∧ off ≤ base + 4 * n) : base + 4 * ((off - base) / 4 % (n + 1)) = off := by
  rw [Nat.mod_eq_of_lt (by omega)]
  omega

theorem base_of_operandRegion {n : Nat} {x : Operand} (h : operandRegion n = some x) : x.base = n * 0x1000 := by
  unfold operandRegion at h
  split_ifs at h <;> cases h <;> subst n <;> rfl

theorem mapped_of_operandAt {off : Nat} {r : Reg} (ha : off % 4 = 0) (h : operandAt off = some r) :
    r.isMapped = true ∧ r.offset = off := by
  unfold operandAt at h
  split at h
  · cases h
  · next x hx =>
    split_ifs at h with hk
    cases h
    refine ⟨decide_eq_true hk, ?_⟩
    rw [Reg.offset, base_of_operandRegion hx]
    omega

/-- A register that an offset reaches is mapped, at that offset: five single registers, seven banks, the operands. -/
theorem mapped_of_regAt {off : Nat} {r : Reg} (h : regAt off = some r) : r.isMapped = true ∧ r.offset = off := by
  unfold regAt at h
  by_cases ha : off % 4 = 0
  · rw [if_neg (not_not_intro ha)] at h
    iterate 5
      refine of_ite_some_eq (P := fun r => r.isMapped = true ∧ r.offset = off) h (⟨rfl, ·.symm⟩) fun h => ?_
    iterate 7
      refine of_ite_some_eq (P := fun r => r.isMapped = true ∧ r.offset = off) h (⟨rfl, add_index ha rfl ·⟩)
        fun h => ?_
    exact mapped_of_operandAt ha h
  · rw [if_pos ha] at h
    cases h

/-- A mapped register is reached at its offset. -/
theorem regAt_offset {r : Reg} (h : r.isMapped = true) : regAt r.offset = some r := by
  cases r with
  | id => rfl
  | param => rfl
  | ctrl => rfl
  | status => rfl
  | cmd => rfl
  | key i => revert i; decide
  | din i => revert i; decide
  | dout i => revert i; decide
  | rkw j => revert j; decide
  | sboxw j => revert j; decide
  | isboxw j => revert j; decide
  | rconw j => revert j; decide
  | operand x k => exact regAt_operand x (of_decide_eq_true h)

theorem mapped_of_accessedReg {off width : Nat} {r : Reg} (h : accessedReg off width = some r) :
    r.isMapped = true ∧ r.offset = off := by
  unfold accessedReg at h
  split at h
  · exact mapped_of_regAt h
  · cases h

/-! ### Words and commands (R110, R112, R116) -/

theorem decodeOp_eq_some_iff {op : Byte} {i : Instr} : decodeOp op = some i ↔ op = opcode i := by
  constructor
  · intro h
    unfold decodeOp at h
    split_ifs at h <;> cases h <;> assumption
  · rintro rfl
    cases i <;> rfl

theorem rsvField_append_opField (v : Word) : rsvField v ++ opField v = v := by
  unfold rsvField opField
  rw [BitVec.extractLsb'_append_extractLsb'_eq_extractLsb' (by rfl)]
  exact BitVec.extractLsb'_eq_self

@[simp] theorem rsvField_encode (i : Instr) : rsvField (encode i) = 0#24 := by
  cases i <;> rfl

@[simp] theorem opField_encode (i : Instr) : opField (encode i) = opcode i := by
  cases i <;> rfl

/-- A word decodes to a command exactly when it is that command's encoding. -/
theorem decode_eq_some_iff {v : Word} {i : Instr} : decode v = some i ↔ v = encode i := by
  constructor
  · intro h
    unfold decode at h
    split_ifs at h with hr
    rw [← rsvField_append_opField v, not_not.mp hr, decodeOp_eq_some_iff.mp h, encode]
  · rintro rfl
    simp [decode, decodeOp_eq_some_iff]

theorem encode_eq_aesKeyexp_iff (i : Instr) : encode i = 0x00000001#32 ↔ i = .aesKeyexp := by
  cases i <;> decide

theorem decode_of_decodeTableWord {w : Nat} {i : Instr} (h : decodeTableWord 32 w = some i) :
    decode (BitVec.ofNat 32 (w % 2 ^ 32)) = some i := by
  unfold decodeTableWord at h
  split at h
  · exact h
  · cases h

/-! ### Which reads are unspecified (R62) -/

theorem unspecifiedRead_of_idle {c : CoreState} (r : Reg) (h : c.phase = .idle) : unspecifiedRead r c = false := by
  simp [unspecifiedRead, h]

/-- R62 by command word: the running word is that of a command that writes the register. -/
theorem unspecifiedRead_eq_true_iff {c : CoreState} {r : Reg} :
    unspecifiedRead r c = true ↔ ∃ v, c.phase = .busy v ∧
      (((v = 0x00000002#32 ∨ v = 0x00000003#32) ∧ ∃ i, r = .dout i) ∨
        ((v = 0x00000010#32 ∨ v = 0x00000011#32) ∧ ∃ k, r = .operand .R k) ∨
        (v = 0x00000001#32 ∧ ∃ j, r = .rkw j)) := by
  cases hp : c.phase with
  | idle => simp [unspecifiedRead_of_idle r hp]
  | busy v =>
    simp only [unspecifiedRead, hp]
    cases r with
    | dout i => simp [decode_eq_some_iff, encode, opcode]
    | rkw j => simp [decode_eq_some_iff, encode, opcode]
    | operand x k => cases x <;> simp [decode_eq_some_iff, encode, opcode]
    | _ => simp

/-- Of the registers, only `DOUT`, `R` and the round keys can read as a free value. -/
theorem unspecifiedRead_eq_false {r : Reg} (c : CoreState) (hd : ∀ i, r ≠ .dout i) (hk : ∀ j, r ≠ .rkw j)
    (hR : ∀ k, r ≠ .operand .R k) : unspecifiedRead r c = false := by
  rw [Bool.eq_false_iff, Ne, unspecifiedRead_eq_true_iff]
  rintro ⟨v, -, ⟨-, i, hi⟩ | ⟨-, k, hk'⟩ | ⟨-, j, hj⟩⟩
  · exact hd i hi
  · exact hR k hk'
  · exact hk j hj

theorem unspecifiedRead_dout {c : CoreState} (i : Fin 4) (henc : c.phase ≠ .busy 0x00000002#32)
    (hdec : c.phase ≠ .busy 0x00000003#32) : unspecifiedRead (.dout i) c = false := by
  rw [Bool.eq_false_iff, Ne, unspecifiedRead_eq_true_iff]
  rintro ⟨v, hp, ⟨rfl | rfl, -⟩ | ⟨-, k, hk⟩ | ⟨-, j, hj⟩⟩
  · exact henc hp
  · exact hdec hp
  · cases hk
  · cases hj

theorem unspecifiedRead_rkw {c : CoreState} (j : Fin 44) (h : c.phase ≠ .busy 0x00000001#32) :
    unspecifiedRead (.rkw j) c = false := by
  rw [Bool.eq_false_iff, Ne, unspecifiedRead_eq_true_iff]
  rintro ⟨v, hp, ⟨-, i, hi⟩ | ⟨-, k, hk⟩ | ⟨rfl, -⟩⟩
  · cases hi
  · cases hk
  · exact h hp

/-! ### Accesses at a register's offset -/

theorem readAt_response {off : Nat} {r : Reg} {s : State} (h : regAt off = some r)
    (hu : unspecifiedRead r s.core = false) : (readAt off 4 s).response = some (.data (readReg r s.core)) := by
  rw [readAt_some ((accessedReg_four off).trans h) hu]

theorem readAt_offset {r : Reg} (hm : r.isMapped = true) {s : State} (hu : unspecifiedRead r s.core = false) :
    (readAt r.offset 4 s).response = some (.data (readReg r s.core)) :=
  readAt_response (regAt_offset hm) hu

/-- A register that no command writes reads, idle or busy, as its current value. -/
theorem readAt_offset_specified {r : Reg} (hm : r.isMapped = true) (hd : ∀ i, r ≠ .dout i) (hk : ∀ j, r ≠ .rkw j)
    (hR : ∀ k, r ≠ .operand .R k) (s : State) :
    (readAt r.offset 4 s).response = some (.data (readReg r s.core)) :=
  readAt_offset hm (unspecifiedRead_eq_false s.core hd hk hR)

theorem writeAt_offset {r : Reg} (hm : r.isMapped = true) (v : Word) (s : State) :
    writeAt r.offset 4 v s = { s with core := writeReg r v s.core, response := some .ack } :=
  writeAt_some ((accessedReg_four _).trans (regAt_offset hm))

theorem readAt_key (i : Fin 4) (s : State) :
    (readAt (0x0020 + 4 * i.val) 4 s).response = some (.data (s.core.key.get i)) :=
  readAt_offset_specified (r := .key i) rfl nofun nofun nofun s

theorem readAt_din (i : Fin 4) (s : State) :
    (readAt (0x0030 + 4 * i.val) 4 s).response = some (.data (s.core.din.get i)) :=
  readAt_offset_specified (r := .din i) rfl nofun nofun nofun s

section
variable {s : State} (hp : s.core.phase = .idle)
include hp

theorem writeAt_key (i : Fin 4) (v : Word) :
    writeAt (0x0020 + 4 * i.val) 4 v s =
      { s with core := { s.core with key := s.core.key.set i v, keyValid := false }, response := some .ack } := by
  have hw := writeAt_offset (r := .key i) rfl v s
  rwa [writeReg, unlessBusy_of_idle (busy_of_phase_idle hp)] at hw

theorem writeAt_din (i : Fin 4) (v : Word) :
    writeAt (0x0030 + 4 * i.val) 4 v s =
      { s with core := { s.core with din := s.core.din.set i v }, response := some .ack } := by
  have hw := writeAt_offset (r := .din i) rfl v s
  rwa [writeReg, unlessBusy_of_idle (busy_of_phase_idle hp)] at hw

theorem writeAt_cmd (v : Word) : writeAt 0x0010 4 v s = { s with core := issue v s.core, response := some .ack } := by
  have hw := writeAt_offset (r := .cmd) rfl v s
  rwa [writeReg, unlessBusy_of_idle (busy_of_phase_idle hp)] at hw

theorem writeAt_operand {x : Operand} (hx : x ≠ .R) {k : Nat} (hk : k < Config.nw) (v : Word) :
    writeAt (x.base + 4 * k) 4 v s =
      { s with core := s.core.setOperand x (setWordAt (s.core.operand x) k v), response := some .ack } := by
  rw [writeAt_some ((accessedReg_four _).trans (regAt_operand x hk)), writeReg_operand hx k v hp]

end

end Sys2Proof.Machine
end

section
/-! SUPPORT. The words of the registers: the fields of `STATUS` and `PARAM`, the round keys, and the words of a big
operand. -/

namespace Sys2Proof.Machine

/-! ### `STATUS` and `PARAM` (R37, R40) -/

section
variable (c : CoreState)

theorem statusWord_bits :
    (statusWord c).getLsbD 0 = c.busy ∧ (statusWord c).getLsbD 1 = c.done ∧ (statusWord c).getLsbD 2 = c.keyValid ∧
      (statusWord c).getLsbD 3 = c.prime ∧ (statusWord c).getLsbD 4 = c.wign := by
  simp only [statusWord, BitVec.getLsbD_append]
  simp

theorem statusWord_err : (statusWord c).extractLsb' 8 4 = c.err.code := by
  unfold statusWord
  iterate 6 rw [BitVec.extractLsb'_append_eq_of_le (by decide)]
  rw [BitVec.extractLsb'_append_eq_of_add_le (by decide), BitVec.extractLsb'_eq_self]

theorem statusWord_lastop : (statusWord c).extractLsb' 16 8 = c.lastop := by
  unfold statusWord
  iterate 8 rw [BitVec.extractLsb'_append_eq_of_le (by decide)]
  rw [BitVec.extractLsb'_append_eq_of_add_le (by decide), BitVec.extractLsb'_eq_self]

theorem statusWord_reserved :
    (statusWord c).extractLsb' 5 3 = 0#3 ∧ (statusWord c).extractLsb' 12 4 = 0#4 ∧
      (statusWord c).extractLsb' 24 8 = 0#8 := by
  unfold statusWord
  refine ⟨?_, ?_, ?_⟩
  · iterate 5 rw [BitVec.extractLsb'_append_eq_of_le (by decide)]
    rw [BitVec.extractLsb'_append_eq_of_add_le (by decide), BitVec.extractLsb'_eq_self]
  · iterate 7 rw [BitVec.extractLsb'_append_eq_of_le (by decide)]
    rw [BitVec.extractLsb'_append_eq_of_add_le (by decide), BitVec.extractLsb'_eq_self]
  · iterate 9 rw [BitVec.extractLsb'_append_eq_of_le (by decide)]
    exact BitVec.extractLsb'_eq_self

end

theorem paramWord_nw : (paramWord.extractLsb' 0 16).toNat = Config.nw := by
  have := nw_bounds
  unfold paramWord
  rw [BitVec.extractLsb'_append_eq_of_add_le (by decide), BitVec.extractLsb'_eq_self, BitVec.toNat_ofNat]
  exact Nat.mod_eq_of_lt (by omega)

theorem paramWord_mrRounds : paramWord.extractLsb' 16 8 = 0x80#8 := by
  unfold paramWord
  rw [BitVec.extractLsb'_append_eq_of_le (by decide), BitVec.extractLsb'_append_eq_of_add_le (by decide)]
  rfl

theorem paramWord_reserved : paramWord.extractLsb' 24 8 = 0#8 := by
  unfold paramWord
  iterate 2 rw [BitVec.extractLsb'_append_eq_of_le (by decide)]
  exact BitVec.extractLsb'_eq_self

theorem paramWord_of_nw_eq (h : Config.nw = 64) : paramWord = 0x00800040#32 := by
  unfold paramWord
  rw [h]
  rfl

/-! ### Round keys -/

/-- `RKW(4i+c)` is column `c` of round key `i` (R54). -/
theorem roundKeyWord_index (rk : Vector AesState 11) (i : Fin 11) (c : Fin 4) (h : 4 * i.val + c.val < 44) :
    roundKeyWord rk ⟨4 * i.val + c.val, h⟩ =
      wordOfBytes (rk[i].at 0 c) (rk[i].at 1 c) (rk[i].at 2 c) (rk[i].at 3 c) := by
  have hi : (4 * i.val + c.val) / 4 = i.val := by omega
  have hc : Fin.ofNat 4 (4 * i.val + c.val) = c := Fin.ext (by simp only [Fin.ofNat]; omega)
  simp only [roundKeyWord, hi, hc]
  rfl

/-! ### The words of a big operand (R50) -/

theorem toNat_wordAt (x k : Nat) : (wordAt x k).toNat = x / 2 ^ (32 * k) % 2 ^ 32 := rfl

/-- The low `n` words of a number, summed by weight, are the number modulo `2^(32n)`. -/
theorem sum_wordAt (x n : Nat) : ∑ k ∈ Finset.range n, (wordAt x k).toNat * 2 ^ (32 * k) = x % 2 ^ (32 * n) := by
  induction n with
  | zero => simp [Nat.mod_one]
  | succ n ih =>
    rw [Finset.sum_range_succ, ih, toNat_wordAt, Nat.mul_succ, pow_add, Nat.mod_mul, mul_comm (2 ^ (32 * n))]

/-- The low bits determine the low words. -/
theorem wordAt_eq_of_mod_eq {x y m j : Nat} (hj : j < m) (h : x % 2 ^ (32 * m) = y % 2 ^ (32 * m)) :
    wordAt x j = wordAt y j := by
  have e : 2 ^ (32 * m) = 2 ^ (32 * j) * (2 ^ 32 * 2 ^ (32 * (m - j - 1))) := by
    rw [← pow_add, ← pow_add]
    congr 1
    omega
  have low (z : Nat) : wordAt z j = wordAt (z % 2 ^ (32 * m)) j := by
    apply BitVec.eq_of_toNat_eq
    rw [toNat_wordAt, toNat_wordAt, e, Nat.mod_mul_right_div_self, Nat.mod_mul_right_mod]
  rw [low x, low y, h]

/-- The high bits determine the high words. -/
theorem wordAt_eq_of_div_eq {x y m j : Nat} (hj : m ≤ j) (h : x / 2 ^ (32 * m) = y / 2 ^ (32 * m)) :
    wordAt x j = wordAt y j := by
  have e : 2 ^ (32 * j) = 2 ^ (32 * m) * 2 ^ (32 * (j - m)) := by
    rw [← pow_add]
    congr 1
    omega
  rw [wordAt, wordAt, e, ← Nat.div_div_eq_div_mul, h, Nat.div_div_eq_div_mul]

theorem setWordAt_mod (x k : Nat) (v : Word) : setWordAt x k v % 2 ^ (32 * k) = x % 2 ^ (32 * k) := by
  rw [setWordAt, Nat.mul_succ, pow_add]
  generalize 2 ^ (32 * k) = P
  rw [show x % P + v.toNat * P + x / (P * 2 ^ 32) * (P * 2 ^ 32) =
    x % P + P * (v.toNat + x / (P * 2 ^ 32) * 2 ^ 32) by ring]
  rw [Nat.add_mul_mod_self_left, Nat.mod_mod]

theorem setWordAt_div (x k : Nat) (v : Word) :
    setWordAt x k v / 2 ^ (32 * (k + 1)) = x / 2 ^ (32 * (k + 1)) := by
  have hlow : x % 2 ^ (32 * k) + v.toNat * 2 ^ (32 * k) < 2 ^ (32 * (k + 1)) := by
    rw [Nat.mul_succ, pow_add]
    calc _ < 2 ^ (32 * k) + v.toNat * 2 ^ (32 * k) := Nat.add_lt_add_right (Nat.mod_lt _ (by positivity)) _
      _ = 2 ^ (32 * k) * (v.toNat + 1) := by ring
      _ ≤ _ := Nat.mul_le_mul_left _ v.isLt
  rw [setWordAt, Nat.add_mul_div_right _ _ (by positivity), Nat.div_eq_of_lt hlow, Nat.zero_add]

/-- A write of word `k` leaves the other words. -/
theorem wordAt_setWordAt_other {x k j : Nat} (v : Word) (h : j ≠ k) : wordAt (setWordAt x k v) j = wordAt x j := by
  rcases Nat.lt_or_gt_of_ne h with hlt | hgt
  · exact wordAt_eq_of_mod_eq hlt (setWordAt_mod x k v)
  · exact wordAt_eq_of_div_eq hgt (setWordAt_div x k v)

end Sys2Proof.Machine
end

section
/-! SUPPORT. What a command's completion and a step do, beside what `exec_next` and `step_cases` say. -/

namespace Sys2Proof.Machine

/-! ### Errors and draws of a command (R331, R219) -/

/-- An outcome of a command on `s` that is a completion without a draw, and not with the error of an illegal word. -/
def CompletesWithoutDraw (s : State) (o : Host.Outcome State Fault Refusal) : Prop :=
  ∃ op e c, e ≠ .illegal ∧ o = .next { s with core := complete op e c }

theorem completesWithoutDraw_finishOk (op : Byte) (c : CoreState) (s : State) :
    CompletesWithoutDraw s (finishOk op c s) :=
  ⟨op, .ok, c, nofun, rfl⟩

theorem completesWithoutDraw_raiseCmdError (op : Byte) {e : ErrCode} (he : e ≠ .illegal) (s : State) :
    CompletesWithoutDraw s (raiseCmdError op e s) :=
  ⟨op, e, s.core, he, rfl⟩

theorem completesWithoutDraw_blockCommand (op : Byte) (f : AesState → Vector AesState 11 → AesState) (s : State) :
    CompletesWithoutDraw s (blockCommand op f s) := by
  unfold blockCommand
  split
  · exact completesWithoutDraw_finishOk _ _ _
  · exact completesWithoutDraw_raiseCmdError _ (by decide) _

theorem completesWithoutDraw_modCommand (op : Byte) (result : Nat) (s : State) :
    CompletesWithoutDraw s (modCommand op result s) := by
  unfold modCommand
  split
  · exact completesWithoutDraw_raiseCmdError _ (by decide) _
  · exact completesWithoutDraw_finishOk _ _ _

theorem completesWithoutDraw_execMrRound (s : State) : CompletesWithoutDraw s (execMrRound s) := by
  unfold execMrRound
  split
  · exact completesWithoutDraw_finishOk _ _ _
  · split
    · exact completesWithoutDraw_raiseCmdError _ (by decide) _
    · exact completesWithoutDraw_finishOk _ _ _

theorem completesWithoutDraw_exec {i : Instr} (hi : i ≠ .mrTest) (s : State) : CompletesWithoutDraw s (exec i s) := by
  cases i with
  | nop => exact completesWithoutDraw_finishOk _ _ _
  | aesKeyexp => exact completesWithoutDraw_finishOk _ _ _
  | aesEnc => exact completesWithoutDraw_blockCommand _ _ _
  | aesDec => exact completesWithoutDraw_blockCommand _ _ _
  | modmul => exact completesWithoutDraw_modCommand _ _ _
  | modexp => exact completesWithoutDraw_modCommand _ _ _
  | mrRound => exact completesWithoutDraw_execMrRound s
  | mrTest => exact absurd rfl hi

section
variable {i : Instr} {s t : State}

/-- Only MR_TEST draws. -/
theorem exec_entropyDraws (hi : i ≠ .mrTest) (h : exec i s = .next t) : t.entropyDraws = s.entropyDraws := by
  obtain ⟨op, e, c, -, hx⟩ := completesWithoutDraw_exec hi s
  cases hx.symm.trans h
  rfl

/-- `ILLEGAL` is the error of a word that names no command, and of no command. -/
theorem exec_err_ne_illegal (h : exec i s = .next t) : t.core.err ≠ .illegal := by
  by_cases hi : i = .mrTest
  · cases hi
    cases h
    nofun
  · obtain ⟨op, e, c, he, hx⟩ := completesWithoutDraw_exec hi s
    cases hx.symm.trans h
    exact he

/-- What the completion of every command writes (R61), and what of the model's own fields it leaves. -/
theorem exec_completion (h : exec i s = .next t) :
    t.core.phase = .idle ∧ t.core.done = true ∧ t.core.lastop = opcode i ∧
      t.events = s.events ∧ t.response = s.response ∧ t.busDraws = s.busDraws := by
  obtain ⟨e, c, d, hx, -, -⟩ := exec_next i s
  cases hx.symm.trans h
  exact ⟨rfl, rfl, rfl, rfl, rfl, rfl⟩

end

/-! ### Steps that are the sequencer's turn -/

theorem step_of_events_nil {s : State} (h : s.events = []) : step s = sequencerTurn s := by
  rw [step, nextEvent, h]

theorem step_of_events_sequencer {s : State} {es : List Event} (h : s.events = .sequencer :: es) :
    step s = sequencerTurn { s with events := es } := by
  rw [step, nextEvent, h]
  rfl

/-- A placed word is run by the very next step, as issued (log entry 2). -/
theorem step_withFetchWord (s : State) (nbits w : Nat) :
    step (s.withFetchWord nbits w) =
      sequencerTurn { s with core := issue (BitVec.ofNat 32 (w % 2 ^ nbits)) s.core } :=
  rfl

end Sys2Proof.Machine
end

section
/-! The invariant: it holds at reset, and every operation on the CORE keeps it. -/

namespace Sys2Proof.Machine

theorem inv_reset : CoreState.reset.Inv := by
  refine ⟨fun x => ?_, nofun, nofun, nofun⟩
  rw [operand_reset]
  positivity

/-- A completion leaves the CORE idle, so only the operands' range and the schedule are asked of the results. -/
theorem inv_complete {c : CoreState} (op : Byte) (e : ErrCode) (hr : c.operandsInRange) (hs : c.scheduleValid) :
    (complete op e c).Inv :=
  ⟨fun x => by rw [operand_complete]; exact hr x, hs, nofun, nofun⟩

/-! ### Writes to the CORE's registers -/

section
variable {c : CoreState}

theorem operandsInRange_setOperand {x : Operand} {n : Nat} (h : c.operandsInRange) (hn : n < 2 ^ Config.bigBits) :
    (c.setOperand x n).operandsInRange := by
  intro y
  by_cases hy : y = x
  · rw [hy, operand_setOperand_same]
    exact hn
  · rw [operand_setOperand_other c n hy]
    exact h y

variable (h : c.Inv)
include h

theorem inv_setOperand {x : Operand} {n : Nat} (hn : n < 2 ^ Config.bigBits) : (c.setOperand x n).Inv := by
  obtain ⟨hr, hs, hb, he⟩ := h
  exact ⟨operandsInRange_setOperand hr hn, by cases x <;> exact hs, by cases x <;> exact hb, by cases x <;> exact he⟩

/-- `DONE` falls as `BUSY` rises, and `KEYVALID` falls with the issue of AES_KEYEXP (R60). -/
theorem inv_issue (v : Word) : (issue v c).Inv := by
  obtain ⟨hr, hs, -, -⟩ := h
  refine ⟨fun x => by rw [operand_issue]; exact hr x, fun hk => hs ?_, fun _ => rfl, fun hp => ?_⟩
  · rw [issue_keyValid] at hk
    split at hk
    · cases hk
    · exact hk
  · rw [issue_keyValid, if_pos (by simpa using hp)]

theorem inv_writeStatus (v : Word) : (writeStatus v c).Inv := by
  obtain ⟨hr, hs, hb, he⟩ := h
  refine ⟨fun x => by rw [operand_writeStatus]; exact hr x, hs, fun hbusy => ?_, he⟩
  rw [writeStatus_done, hb hbusy, Bool.false_and]

theorem inv_writeCtrl (v : Word) : (writeCtrl v c).Inv := by
  cases hv : v.getLsbD 1 with
  | true => rw [writeCtrl_reset hv]; exact inv_reset
  | false => rw [writeCtrl_ie hv]; exact h

/-- A write to an input register keeps the invariant if the accepted write does: an ignored one only sets `WIGN`. -/
theorem inv_unlessBusy {f : CoreState → CoreState} (hf : c.busy = false → (f c).Inv) : (unlessBusy f c).Inv :=
  unlessBusy_cases hf fun _ => h

theorem inv_writeReg_operand {x : Operand} {k : Nat} (v : Word) (hk : k < Config.nw) :
    (writeReg (.operand x k) v c).Inv := by
  obtain ⟨hr, -, -, -⟩ := id h
  have hn : (c.setOperand x (setWordAt (c.operand x) k v)).Inv := inv_setOperand h (setWordAt_lt v (hr x) hk)
  cases x with
  | R => exact h
  | A => exact inv_unlessBusy h fun _ => hn
  | B => exact inv_unlessBusy h fun _ => hn
  | E => exact inv_unlessBusy h fun _ => hn
  | N => exact inv_unlessBusy h fun _ => hn

/-- A host write to a mapped register keeps the invariant; an accepted key write clears `KEYVALID` (R49). -/
theorem inv_writeReg {r : Reg} (v : Word) (hm : r.isMapped = true) : (writeReg r v c).Inv := by
  cases r with
  | ctrl => exact inv_writeCtrl h v
  | status => exact inv_writeStatus h v
  | cmd => exact inv_unlessBusy h fun _ => inv_issue h v
  | key i =>
    obtain ⟨hr, -, hb, -⟩ := id h
    exact inv_unlessBusy h fun _ => ⟨hr, nofun, hb, fun _ => rfl⟩
  | din i => exact inv_unlessBusy h fun _ => h
  | operand x k => exact inv_writeReg_operand h v (of_decide_eq_true hm)
  | id => exact h
  | param => exact h
  | dout i => exact h
  | rkw j => exact h
  | sboxw j => exact h
  | isboxw j => exact h
  | rconw j => exact h

end

/-! ### The machine's events -/

section
variable {s t : State} (h : s.Inv)
include h

theorem inv_accessAt (off : Nat) (a : Access) : (accessAt off a s).Inv := by
  cases a with
  | read addr width =>
    obtain ⟨hc, -, -⟩ := readAt_frame off width s
    show (readAt off width s).core.Inv
    rw [hc]
    exact h
  | write addr width v =>
    show (writeAt off width v s).core.Inv
    cases hr : accessedReg off width with
    | none => rw [writeAt_none hr]; exact h
    | some r =>
      rw [writeAt_some hr]
      exact inv_writeReg h v (mapped_of_accessedReg hr).1

/-- A command keeps the invariant: only AES_KEYEXP writes the schedule, and a result in `R` is below `N`. -/
theorem inv_exec {i : Instr} (ht : exec i s = .next t) : t.Inv := by
  obtain ⟨hr, hs, -, -⟩ := h
  obtain ⟨e, c, d, hx, -, hc⟩ := exec_next i s
  cases hx.symm.trans ht
  suffices hres : c.operandsInRange ∧ c.scheduleValid from inv_complete _ _ hres.1 hres.2
  rcases hc with rfl | ⟨-, rfl⟩ | ⟨-, q, rfl⟩ | ⟨-, r, hlt, rfl⟩ | ⟨-, p, rfl⟩
  · exact ⟨hr, hs⟩
  · exact ⟨hr, fun _ => rfl⟩
  · exact ⟨hr, hs⟩
  · exact ⟨operandsInRange_setOperand (x := .R) hr (hlt.trans (hr .N)), hs⟩
  · exact ⟨hr, hs⟩

theorem inv_sequencerTurn (ht : sequencerTurn s = .next t) : t.Inv := by
  obtain ⟨hr, hs, -, -⟩ := id h
  rcases sequencerTurn_cases s with ⟨-, hx⟩ | ⟨v, -, -, hx⟩ | ⟨v, i, -, -, hx⟩
  · cases hx.symm.trans ht
    exact h
  · cases hx.symm.trans ht
    exact inv_complete _ _ hr hs
  · exact inv_exec h (hx.symm.trans ht)

end

/-- Settles O47. -/
theorem invariantAtReset : Obligations.InvariantAtReset := inv_reset

/-- Settles O48, by the event that the step takes. -/
theorem stepKeepsTheInvariant : Obligations.StepKeepsTheInvariant := by
  intro s t h ht
  rcases step_cases s with ⟨-, hx⟩ | ⟨es, -, hx⟩ | ⟨es, -, hx⟩ | ⟨a, es, -, hx⟩
  · exact inv_sequencerTurn h (hx.symm.trans ht)
  · exact inv_sequencerTurn (s := { s with events := es }) h (hx.symm.trans ht)
  · cases hx.symm.trans ht
    exact inv_reset
  · obtain ⟨off, -, rfl⟩ := hostAccess_eq_next (hx.symm.trans ht)
    exact inv_accessAt (s := { s with events := es }) h off a

end Sys2Proof.Machine
end

section
/-! The registers through the window: what each reads as and what a write to it does. -/

namespace Sys2Proof.Machine

/-- Settles O11: the free value is answered exactly where `unspecifiedRead` says so. -/
theorem readsDuringACommand : Obligations.ReadsDuringACommand := by
  intro off r s hr
  refine ⟨fun hp => readAt_response hr (unspecifiedRead_of_idle r hp), fun v hp => ⟨fun hit => ?_, fun hit => ?_⟩⟩
  · rw [readAt_unspecified ((accessedReg_four off).trans hr) (unspecifiedRead_eq_true_iff.mpr ⟨v, hp, hit⟩)]
  · refine readAt_response hr (Bool.eq_false_iff.mpr fun hu => ?_)
    obtain ⟨w, hw, hit'⟩ := unspecifiedRead_eq_true_iff.mp hu
    cases hp.symm.trans hw
    exact hit hit'

/-- Settles O14: the words are the digits of the operand to the base `2^32`. -/
theorem operandWritesReplaceAWord : Obligations.OperandWritesReplaceAWord := by
  refine ⟨fun c x hr => ?_, fun x k v s hx hk hp => ?_⟩
  · exact ((sum_wordAt _ _).trans (Nat.mod_eq_of_lt (hr x))).symm
  · exact ⟨setWordAt (s.core.operand x) k v, writeAt_operand hp hx hk v, wordAt_setWordAt_same _ k v,
      fun j hj => wordAt_setWordAt_other v hj⟩

/-- Settles O4. -/
theorem statusRegister : Obligations.StatusRegister := by
  refine ⟨fun s => ?_, fun c => ?_, rfl, fun v s => writeAt_offset (r := .status) rfl v s⟩
  · exact readAt_offset_specified (r := .status) rfl nofun nofun nofun s
  · obtain ⟨hbusy, hdone, hkeyValid, hprime, hwign⟩ := statusWord_bits c
    obtain ⟨hrsv5, hrsv12, hrsv24⟩ := statusWord_reserved c
    exact ⟨hbusy, hdone, hkeyValid, hprime, hwign, hrsv5, statusWord_err c, hrsv12, statusWord_lastop c, hrsv24⟩

/-- Settles O5. -/
theorem idAndParamRead : Obligations.IdAndParamRead := by
  intro s
  refine ⟨?_, ⟨paramWord, ?_, paramWord_nw, paramWord_mrRounds, paramWord_reserved, paramWord_of_nw_eq⟩,
    fun v => ⟨?_, ?_⟩⟩
  · exact readAt_offset_specified (r := .id) rfl nofun nofun nofun s
  · exact readAt_offset_specified (r := .param) rfl nofun nofun nofun s
  · exact (congrArg State.core (writeAt_offset (r := .id) rfl v s) :)
  · exact (congrArg State.core (writeAt_offset (r := .param) rfl v s) :)

/-- Settles O6. -/
theorem ctrlWrite : Obligations.CtrlWrite := by
  refine ⟨fun v s => ⟨fun hv => ?_, fun hv => ?_⟩, fun s => ⟨?_, ?_⟩⟩
  · rw [← writeCtrl_reset (c := s.core) hv]
    exact writeAt_offset (r := .ctrl) rfl v s
  · rw [← writeCtrl_ie hv]
    exact writeAt_offset (r := .ctrl) rfl v s
  · exact readAt_offset_specified (r := .ctrl) rfl nofun nofun nofun s
  · exact readAt_offset_specified (r := .cmd) rfl nofun nofun nofun s

/-- Settles O12. -/
theorem constantAndRoundKeyWindows : Obligations.ConstantAndRoundKeyWindows := by
  intro s
  refine ⟨fun j hj => ?_, fun j hj => ?_, ?_, ?_, ?_, fun hp i c => ?_⟩
  · exact readAt_offset_specified (r := .sboxw ⟨j, hj⟩) rfl nofun nofun nofun s
  · exact readAt_offset_specified (r := .isboxw ⟨j, hj⟩) rfl nofun nofun nofun s
  · exact readAt_offset_specified (r := .rconw 0) rfl nofun nofun nofun s
  · exact readAt_offset_specified (r := .rconw 1) rfl nofun nofun nofun s
  · exact readAt_offset_specified (r := .rconw 2) rfl nofun nofun nofun s
  · have hj : 4 * i.val + c.val < 44 := by omega
    rw [← roundKeyWord_index s.core.rk i c hj]
    exact readAt_offset (r := .rkw ⟨4 * i.val + c.val, hj⟩) rfl (unspecifiedRead_rkw _ hp)

/-- Settles O13. -/
theorem keyAndBlockWrites : Obligations.KeyAndBlockWrites := by
  refine ⟨fun i v s hp => ⟨⟨s.core.key.set i v, Quad.get_set_same _ _ _, fun j hj => Quad.get_set_other _ _ hj,
      writeAt_key hp i v⟩, ⟨s.core.din.set i v, Quad.get_set_same _ _ _, fun j hj => Quad.get_set_other _ _ hj,
      writeAt_din hp i v⟩, ?_, ?_⟩, fun i s => ⟨readAt_key i s, readAt_din i s, fun henc hdec => ?_⟩⟩
  · rw [readAt_key, writeAt_key hp, Quad.get_set_same]
  · rw [readAt_din, writeAt_din hp, Quad.get_set_same]
  · exact readAt_offset (r := .dout i) rfl (unspecifiedRead_dout i henc hdec)

/-- Settles O16. -/
theorem issueOfACommand : Obligations.IssueOfACommand := fun v _ hp => writeAt_cmd hp v

/-- Settles O19: the operand words by `wordAt_zero`, the banks and the round keys by their finitely many indices. -/
theorem resetValues : Obligations.ResetValues := by
  have hbank (i : Fin 4) : Quad.zero.get i = 0#32 := by revert i; decide
  refine ⟨rfl, rfl, rfl, rfl, fun i => ⟨hbank i, hbank i, hbank i⟩, by decide, fun x k => ?_, by decide⟩
  exact (congrArg (wordAt · k) (operand_reset x)).trans (wordAt_zero k)

end Sys2Proof.Machine
end

section
/-! Commands and steps: that each running word completes, what a command leaves unchanged, and which command a step
runs. -/

namespace Sys2Proof.Machine

/-- Settles O17, by whether the running word decodes to a command. -/
theorem everyRunningWordCompletes : Obligations.EveryRunningWordCompletes := by
  intro v s hp
  cases hd : decode v with
  | none => exact ⟨_, sequencerTurn_illegal hp hd, rfl, rfl, rfl, rfl, iff_of_true rfl rfl, rfl, rfl, rfl⟩
  | some i =>
    obtain ⟨e, c, d, hx, -, -⟩ := exec_next i s
    obtain ⟨hidle, hdone, hop, hevents, hresponse, hdraws⟩ := exec_completion hx
    have hv : v.extractLsb' 0 8 = opcode i := by
      rw [decode_eq_some_iff.mp hd]
      exact opField_encode i
    exact ⟨_, (sequencerTurn_legal hp hd).trans hx, hidle, busy_of_phase_idle hidle, hdone, hop.trans hv.symm,
      iff_of_false (exec_err_ne_illegal hx) nofun, hevents, hresponse, hdraws⟩

/-- Settles O21, by the results that `exec_next` leaves to each command. -/
theorem commandFrame : Obligations.CommandFrame := by
  intro i s t h
  obtain ⟨e, c, d, hx, -, hc⟩ := exec_next i s
  have hdraws : i ≠ .mrTest → d = s.entropyDraws := fun hi => exec_entropyDraws hi hx
  cases hx.symm.trans h
  rcases hc with rfl | ⟨rfl, rfl⟩ | ⟨rfl | rfl, q, rfl⟩ | ⟨rfl | rfl, r, -, rfl⟩ | ⟨rfl | rfl, p, rfl⟩
  · simpa using hdraws
  · simpa using hdraws
  · simpa using hdraws
  · simpa using hdraws
  · simpa using hdraws
  · simpa using hdraws
  · simpa using hdraws
  · simp

/-- Settles O22, by the register that the offset reaches. -/
theorem commandFrameThroughTheWindow : Obligations.CommandFrameThroughTheWindow := by
  intro i s t off r h hr hoff hres
  obtain ⟨hkey, hdin, hA, hB, hE, hN, hie, -, hrk, hdout, hR, -⟩ := commandFrame i s t h
  cases r with
  | id => rfl
  | param => rfl
  | ctrl => rw [readReg, readReg, ctrlWord, ctrlWord, hie]
  | status => exact absurd (mapped_of_regAt hr).2.symm hoff
  | cmd => rfl
  | key j => rw [readReg, readReg, hkey]
  | din j => rw [readReg, readReg, hdin]
  | dout j => rw [readReg, readReg, hdout (by rintro rfl; cases hres) (by rintro rfl; cases hres)]
  | rkw j => rw [readReg, readReg, (hrk (by rintro rfl; cases hres)).1]
  | sboxw j => rfl
  | isboxw j => rfl
  | rconw j => rfl
  | operand x k =>
    have hx : t.core.operand x = s.core.operand x := by
      cases x with
      | A => exact hA
      | B => exact hB
      | E => exact hE
      | N => exact hN
      | R => exact hR (by rintro rfl; cases hres) (by rintro rfl; cases hres)
    rw [readReg, readReg, hx]

/-- Settles O46. -/
theorem stepRunsTheDecodedCommand : Obligations.StepRunsTheDecodedCommand := by
  refine ⟨fun v i s hp hd _ => ⟨fun he => ?_, fun es he => ?_⟩, fun w i s hw => ?_⟩
  · rw [step_of_events_nil he, sequencerTurn_legal hp hd]
  · rw [step_of_events_sequencer he]
    exact sequencerTurn_legal hp hd
  · have hd := decode_of_decodeTableWord hw
    rw [step_withFetchWord, sequencerTurn_legal (issue_phase _ _) hd, decode_eq_some_iff.mp hd]
    simp only [issue, encode_eq_aesKeyexp_iff]

end Sys2Proof.Machine
end

section
/-! Accesses to the window: which offsets are mapped, what a bus error, a busy CORE and a read-only register do to an
access, and where in the host's addresses the window lies. -/

namespace Sys2Proof.Machine

/-! ### Bus errors (R83 to R86) -/

theorem accessedReg_of_unmapped {off : Nat} (width : Nat) (h : ∀ r : Reg, r.isMapped = true → r.offset ≠ off) :
    accessedReg off width = none := by
  cases hr : accessedReg off width with
  | none => rfl
  | some r =>
    obtain ⟨hm, hoff⟩ := mapped_of_accessedReg hr
    exact absurd hoff (h r hm)

theorem regAt_of_misaligned {off : Nat} (h : off % 4 ≠ 0) : regAt off = none := if_pos h

theorem accessedReg_of_misaligned {off : Nat} (width : Nat) (h : off % 4 ≠ 0) : accessedReg off width = none := by
  rw [accessedReg, regAt_of_misaligned h, ite_self]

/-- An access that reaches no register is answered with a bus error, and changes nothing else (R85). -/
theorem busError_of_accessedReg_none {off width : Nat} (h : accessedReg off width = none) (v : Word) (s : State) :
    readAt off width s = { s with response := some (.busError off) } ∧
      writeAt off width v s = { s with response := some (.busError off) } :=
  ⟨readAt_none h, writeAt_none h⟩

/-- Settles O8, by `regAt_offset` and `mapped_of_regAt`. -/
theorem registerMapIsExact : Obligations.RegisterMapIsExact :=
  ⟨fun _ => regAt_offset, fun _ _ => mapped_of_regAt,
    fun _ width v s h => busError_of_accessedReg_none (accessedReg_of_unmapped width h) v s⟩

/-- Settles O9: such an access reaches no register. -/
theorem busErrorChangesNothing : Obligations.BusErrorChangesNothing := by
  rintro off width v s (hw | ha)
  · exact busError_of_accessedReg_none (accessedReg_of_width hw) v s
  · exact busError_of_accessedReg_none (accessedReg_of_misaligned width ha) v s

/-! ### Ignored writes (R34, R90) -/

theorem writeReg_input_of_busy {r : Reg} {c : CoreState} (hr : r.isInput = true) (hb : c.busy = true) (v : Word) :
    writeReg r v c = { c with wign := true } := by
  cases r with
  | cmd => rw [writeReg, unlessBusy_of_busy hb]
  | key i => rw [writeReg, unlessBusy_of_busy hb]
  | din i => rw [writeReg, unlessBusy_of_busy hb]
  | operand x k =>
    cases x with
    | R => cases hr
    | A => rw [writeReg, unlessBusy_of_busy hb]
    | B => rw [writeReg, unlessBusy_of_busy hb]
    | E => rw [writeReg, unlessBusy_of_busy hb]
    | N => rw [writeReg, unlessBusy_of_busy hb]
  | _ => cases hr

theorem writeReg_readOnly {r : Reg} (hr : r.isReadOnly = true) (v : Word) (c : CoreState) : writeReg r v c = c := by
  cases r with
  | ctrl => cases hr
  | status => cases hr
  | cmd => cases hr
  | key i => cases hr
  | din i => cases hr
  | operand x k =>
    cases x with
    | R => rfl
    | _ => cases hr
  | _ => rfl

/-- Settles O7, by the access type of the register written. -/
theorem writesWhileBusyAreIgnored : Obligations.WritesWhileBusyAreIgnored := by
  intro off r v s h
  have hw : writeAt off 4 v s = { s with core := writeReg r v s.core, response := some .ack } :=
    writeAt_some ((accessedReg_four off).trans h)
  refine ⟨fun hb hr => ?_, fun _ hr => ?_, fun _ hr => ?_, fun hr => ?_⟩
  · rw [hw, writeReg_input_of_busy hr hb]
  · rw [hw, hr, writeReg]
  · rw [hw, hr, writeReg]
  · rw [hw, writeReg_readOnly hr]

/-! ### Repeated reads (R62, R88) -/

/-- Settles O10: the second read finds the CORE of the first, and only a draw moves the counter of the draws. -/
theorem readsHaveNoSideEffects : Obligations.ReadsHaveNoSideEffects := by
  intro off width s
  obtain ⟨hcore, -, -⟩ := readAt_frame off width s
  refine ⟨hcore, fun r h => ⟨fun hu => ?_, fun hu => ?_⟩⟩
  · have hu' : unspecifiedRead r (readAt off width s).core = false := hcore.symm ▸ hu
    rw [readAt_some h hu', hcore, readAt_some h hu]
  · have hu' : unspecifiedRead r (readAt off width s).core = true := hcore.symm ▸ hu
    rw [readAt_unspecified h hu', readAt_unspecified h hu]
    exact ⟨rfl, rfl⟩

/-! ### The window in the host's addresses (R80, R103) -/

theorem hostAccess_of_windowOffset {a : Access} {off : Nat} (h : windowOffset a.addr = some off) (s : State) :
    hostAccess a s = .next (accessAt off a s) := by
  rw [hostAccess, h]

theorem windowOffset_outside {addr : Nat} (h : addr < Config.coreBase ∨ Config.coreBase + 0x6000 ≤ addr) :
    windowOffset addr = none := by
  rw [windowOffset, Config.windowBytes, if_neg (by omega)]

theorem hostAccess_outside {a : Access} (h : windowOffset a.addr = none) (s : State) :
    hostAccess a s = .fault (.outsideWindow a.addr) := by
  rw [hostAccess, h]

/-- Settles O15, by the window's offset of the accessed address. -/
theorem windowAddressing : Obligations.WindowAddressing := by
  refine ⟨fun off width v s hoff => ?_, Nat.mul_mod_right _ _, fun a s ha => ?_⟩
  · have hin : windowOffset (Config.coreBase + off) = some off := windowOffset_base_add hoff
    exact ⟨hostAccess_of_windowOffset (a := .read _ width) hin s,
      hostAccess_of_windowOffset (a := .write _ width v) hin s⟩
  · exact hostAccess_outside (windowOffset_outside ha) s

end Sys2Proof.Machine
end

section
/-! The encoding: the words that name a command, and what becomes of the words that name none. -/

namespace Sys2Proof.Machine

/-! ### Words of the opcode table (R112, R117) -/

/-- A table row of 32 bits is decoded as the word it is. -/
theorem decodeTableWord_toNat (v : Word) : decodeTableWord 32 v.toNat = decode v := by
  rw [decodeTableWord, Nat.mod_eq_of_lt v.isLt, if_pos v.isLt, BitVec.ofNat_toNat, BitVec.setWidth_eq]

theorem decodeTableWord_encode (i : Instr) : decodeTableWord 32 (encode i).toNat = some i :=
  (decodeTableWord_toNat _).trans (decode_eq_some_iff.mpr rfl)

/-- Settles O2. -/
theorem decodeEncodeAgree : Obligations.DecodeEncodeAgree := fun _ _ => decode_eq_some_iff

/-- Settles O1: the words of the table are the encodings of its commands. -/
theorem tableWordsDecode : Obligations.TableWordsDecode :=
  ⟨decodeTableWord_encode .nop, decodeTableWord_encode .aesKeyexp, decodeTableWord_encode .aesEnc,
    decodeTableWord_encode .aesDec, decodeTableWord_encode .modmul, decodeTableWord_encode .modexp,
    decodeTableWord_encode .mrRound, decodeTableWord_encode .mrTest⟩

/-! ### Illegal words (R113, R114) -/

theorem opcode_mem (i : Instr) : opcode i ∈ [0x00#8, 0x01#8, 0x02#8, 0x03#8, 0x10#8, 0x11#8, 0x20#8, 0x21#8] := by
  cases i <;> decide

/-- The reserved values of `OP` are those outside the table. -/
theorem decodeOp_eq_none_iff {op : Byte} :
    decodeOp op = none ↔ op ∉ [0x00#8, 0x01#8, 0x02#8, 0x03#8, 0x10#8, 0x11#8, 0x20#8, 0x21#8] := by
  constructor
  · intro h hmem
    fin_cases hmem <;> cases h
  · intro h
    refine Option.eq_none_iff_forall_ne_some.mpr fun i hi => h ?_
    rw [decodeOp_eq_some_iff.mp hi]
    exact opcode_mem i

theorem decode_eq_none_iff {v : Word} : decode v = none ↔ rsvField v ≠ 0#24 ∨ decodeOp (opField v) = none := by
  rw [decode, ite_eq_left_iff, imp_iff_not_or, not_not]

/-- The issue of an illegal word leaves `KEYVALID`, as it is not the word of AES_KEYEXP. -/
theorem issue_of_decode_eq_none {v : Word} (h : decode v = none) (c : CoreState) :
    issue v c = { c with phase := .busy v, done := false } := by
  have hv : v ≠ 0x00000001#32 := by
    rintro rfl
    cases h
  rw [issue, if_neg hv]

/-- Settles O3: such a word issues as every word does, and its completion is the command error of the sequencer. -/
theorem illegalWordOnlyReportsIllegal : Obligations.IllegalWordOnlyReportsIllegal := by
  refine ⟨rfl, fun v => ⟨?_, fun hd s => ⟨fun hp => ?_, fun hp => sequencerTurn_illegal hp hd⟩⟩⟩
  · exact decode_eq_none_iff.trans (or_congr_right decodeOp_eq_none_iff)
  · rw [writeAt_cmd hp, issue_of_decode_eq_none hd]

end Sys2Proof.Machine
end

section
/-! The AES datapath: arithmetic in GF(2^8), the S-box as an affine image of inverses, MixColumns and the key
schedule. -/

namespace Sys2Proof.Machine

/-! ### Arithmetic in GF(2^8) (R141) -/

theorem xtime_eq (b : Byte) : xtime b = (b <<< 1) ^^^ (if b.getLsbD 7 then 0x1B#8 else 0x00#8) := by
  rw [xtime]
  split
  · rfl
  · exact BitVec.xor_zero.symm

/-- Multiplication by `x` is linear: the reduction by 0x11B depends on the top bit alone. -/
theorem xtime_xor (a b : Byte) : xtime (a ^^^ b) = xtime a ^^^ xtime b := by
  have reduction : (if (a ^^^ b).getLsbD 7 then 0x1B#8 else 0x00#8) =
      (if a.getLsbD 7 then 0x1B#8 else 0x00#8) ^^^ (if b.getLsbD 7 then 0x1B#8 else 0x00#8) := by
    rw [BitVec.getLsbD_xor]
    cases a.getLsbD 7 <;> cases b.getLsbD 7 <;> rfl
  rw [xtime_eq, xtime_eq, xtime_eq, reduction, BitVec.shiftLeft_xor_distrib]
  ac_rfl

/-- The loop of `gmul` is linear in its multiplicand and its sum together. -/
theorem gmulLoop_xor (n : Nat) (a a' b p p' : Byte) :
    gmulLoop n (a ^^^ a') b (p ^^^ p') = gmulLoop n a b p ^^^ gmulLoop n a' b p' := by
  induction n generalizing a a' b p p' with
  | zero => rfl
  | succ n ih =>
    simp only [gmulLoop, xtime_xor, ← ih]
    cases b.getLsbD 0
    · rfl
    · have e : p ^^^ p' ^^^ (a ^^^ a') = p ^^^ a ^^^ (p' ^^^ a') := by ac_rfl
      simp [e]

theorem gmul_xor_left (a a' b : Byte) : gmul (a ^^^ a') b = gmul a b ^^^ gmul a' b :=
  gmulLoop_xor 8 a a' b 0x00#8 0x00#8

@[simp] theorem gmul_one_left : ∀ b : Byte, gmul 0x01#8 b = b := by decide +kernel

/-! ### MixColumns (R154) -/

@[simp] theorem at_mixColumns (s : AesState) (r c : Fin 4) : (mixColumns s).at r c = gdot (mixRow r) (s.col c) :=
  at_ofFn _ r c

theorem gdot_col (row : Col) (s : AesState) (c : Fin 4) :
    gdot row (s.col c) =
      gmul row.r0 (s.at 0 c) ^^^ gmul row.r1 (s.at 1 c) ^^^ gmul row.r2 (s.at 2 c) ^^^ gmul row.r3 (s.at 3 c) :=
  rfl

/-- The bytes of each row of `M` sum to 0x01. -/
theorem mixRow_sum (r : Fin 4) : (mixRow r).r0 ^^^ (mixRow r).r1 ^^^ (mixRow r).r2 ^^^ (mixRow r).r3 = 0x01#8 := by
  fin_cases r <;> rfl

/-- Settles O41: the sums are the rows of `M`, and a column of equal bytes is multiplied by the sum of each row. -/
theorem mixColumnsFormula : Obligations.MixColumnsFormula := by
  refine ⟨fun s c => ?_, fun s c b h r => ?_⟩
  · simp [gdot_col, mixRow]
  · calc (mixColumns s).at r c
        = gmul ((mixRow r).r0 ^^^ (mixRow r).r1 ^^^ (mixRow r).r2 ^^^ (mixRow r).r3) b := by
          simp only [at_mixColumns, gdot_col, h, gmul_xor_left]
      _ = b := by rw [mixRow_sum, gmul_one_left]

/-! ### The key schedule (R157) -/

theorem get_xor (a b : Col) (i : Fin 4) : (a.xor b).get i = a.get i ^^^ b.get i := by
  fin_cases i <;> rfl

theorem get_scheduleTemp (last : Col) (rc : Byte) (i : Fin 4) :
    (scheduleTemp last rc).get i = sbox (last.get (i + 1)) ^^^ (if i = 0 then rc else 0x00#8) := by
  fin_cases i
  · rfl
  all_goals exact BitVec.xor_zero.symm

theorem at_nextRoundKey_zero (p : AesState) (rc : Byte) (i : Fin 4) :
    (nextRoundKey p rc).at i 0 = p.at i 0 ^^^ sbox (p.at (i + 1) 3) ^^^ (if i = 0 then rc else 0x00#8) := by
  calc (nextRoundKey p rc).at i 0
      = p.at i 0 ^^^ (scheduleTemp (p.col 3) rc).get i := get_xor p.c0 _ i
    _ = _ := by rw [get_scheduleTemp, ← BitVec.xor_assoc]; rfl

theorem col_nextRoundKey (p : AesState) (rc : Byte) {c : Fin 4} (hc : c ≠ 0) :
    (nextRoundKey p rc).col c = ((nextRoundKey p rc).col (c - 1)).xor (p.col c) := by
  fin_cases c
  · exact absurd rfl hc
  all_goals rfl

/-- Settles O42: round key `r + 1` is `nextRoundKey` of round key `r`, whose columns are given above. -/
theorem keyScheduleRecurrence : Obligations.KeyScheduleRecurrence := by
  refine fun key => ⟨keyExpansion_getElem key 0 _, fun r h i => ?_⟩
  rw [keyExpansion_getElem, keyExpansion_getElem, roundKey]
  refine ⟨at_nextRoundKey_zero _ _ i, fun c hc => ?_⟩
  rw [AesState.at, col_nextRoundKey _ _ hc, get_xor]
  rfl

/-! ### The S-box (R143, R145) -/

/-- The affine map of R145. -/
def affine (y : Byte) : Byte :=
  y ^^^ y.rotateLeft 1 ^^^ y.rotateLeft 2 ^^^ y.rotateLeft 3 ^^^ y.rotateLeft 4 ^^^ 0x63#8

/-- The inverse of the affine map, an affine map itself. -/
def affineInv (z : Byte) : Byte := z.rotateLeft 1 ^^^ z.rotateLeft 3 ^^^ z.rotateLeft 6 ^^^ 0x05#8

theorem affine_affineInv : ∀ z : Byte, affine (affineInv z) = z := by decide +kernel

theorem affineInv_sbox_zero : affineInv (sbox 0x00#8) = 0x00#8 := by decide

/-- The 255 entries of R143 for a byte other than 0, each the image of an inverse in GF(2^8). -/
theorem gmul_affineInv_sbox : ∀ x : Byte, x ≠ 0x00#8 → gmul x (affineInv (sbox x)) = 0x01#8 := by decide +kernel

/-- Settles O39: the byte whose affine image is `SBOX[x]` is the inverse of `x`. -/
theorem sboxIsAffineOfInverse : Obligations.SboxIsAffineOfInverse := by
  refine fun x => ⟨affineInv (sbox x), ?_, gmul_affineInv_sbox x, (affine_affineInv (sbox x)).symm⟩
  rintro rfl
  exact affineInv_sbox_zero

/-! ### The round constants (R146) -/

theorem rcon_succ : ∀ i < 9, rcon (i + 1) = xtime (rcon i) := by decide

/-- Settles O40. -/
theorem roundConstantsDouble : Obligations.RoundConstantsDouble := ⟨rfl, rcon_succ, rfl⟩

end Sys2Proof.Machine
end

section
/-! The AES commands: what each writes, and that AES_ENC and AES_DEC use the expansion of the current key or fail. -/

namespace Sys2Proof.Machine

/-! ### The block commands (R185, R190) -/

section
variable {op : Byte} {f : AesState → Vector AesState 11 → AesState} {s t : State}

theorem blockCommand_of_keyValid (h : s.core.keyValid = true) :
    blockCommand op f s = finishOk op { s.core with dout := quadOfState (f (stateOfQuad s.core.din) s.core.rk) } s :=
  if_pos h

theorem blockCommand_of_keyInvalid (h : s.core.keyValid = false) :
    blockCommand op f s = raiseCmdError op .noKey s :=
  if_neg (Bool.eq_false_iff.mp h)

/-- Where `KEYVALID` vouches for the round-key RAM (R182), a block command fails or uses the current key (R183). -/
theorem blockCommand_uses_current_key (hs : s.core.scheduleValid) (h : blockCommand op f s = .next t) :
    t.core.err = .noKey ∨
      t.core.dout = quadOfState (f (stateOfQuad s.core.din) (keyExpansion (stateOfQuad s.core.key))) := by
  cases hk : s.core.keyValid with
  | false =>
    rw [blockCommand_of_keyInvalid hk, raiseCmdError_eq_next] at h
    exact .inl (h ▸ rfl)
  | true =>
    rw [blockCommand_of_keyValid hk, finishOk_eq_next, hs hk] at h
    exact .inr (h ▸ rfl)

end

theorem exec_aesEnc (s : State) : exec .aesEnc s = blockCommand 0x02#8 cipher s := rfl

theorem exec_aesDec (s : State) : exec .aesDec s = blockCommand 0x03#8 invCipher s := rfl

/-! ### The statements -/

/-- Settles O26. -/
theorem aesKeyexpExpandsTheKey : Obligations.AesKeyexpExpandsTheKey := by
  refine ⟨fun s hp => ?_, fun s => rfl⟩
  rw [writeAt_cmd hp, issue_keyValid, if_pos rfl]

/-- Settles O27. -/
theorem aesEncEncryptsTheBlock : Obligations.AesEncEncryptsTheBlock := by
  intro s
  rw [exec_aesEnc]
  exact ⟨blockCommand_of_keyValid, blockCommand_of_keyInvalid⟩

/-- Settles O28. -/
theorem aesDecDecryptsTheBlock : Obligations.AesDecDecryptsTheBlock := by
  intro s
  rw [exec_aesDec]
  exact ⟨blockCommand_of_keyValid, blockCommand_of_keyInvalid⟩

/-- Settles O45: a key write clears `KEYVALID`, and the invariant ties a set `KEYVALID` to the key registers. -/
theorem onlyTheCurrentKeyIsUsed : Obligations.OnlyTheCurrentKeyIsUsed := by
  refine ⟨fun i v s hp => ?_, fun s t hinv => ?_⟩
  · rw [writeAt_key hp]
    refine ⟨rfl, ?_⟩
    rintro cmd (rfl | rfl)
    · exact ⟨_, (exec_aesEnc _).trans (blockCommand_of_keyInvalid rfl), rfl⟩
    · exact ⟨_, (exec_aesDec _).trans (blockCommand_of_keyInvalid rfl), rfl⟩
  · obtain ⟨-, hs, -, -⟩ := hinv
    rw [exec_aesEnc, exec_aesDec]
    exact ⟨blockCommand_uses_current_key hs, blockCommand_uses_current_key hs⟩

end Sys2Proof.Machine
end

section
/-! The modular kernel (R242): square-and-multiply computes the power. -/

namespace Sys2Proof.Machine

/-- What a run of the loop of `ModExp` adds to its accumulator, once its rounds suffice for the bits of `e`. -/
theorem modExpLoop_eq {n fuel e : Nat} (acc base : Nat) (he : e < 2 ^ fuel) :
    modExpLoop fuel (acc % n) base e n = acc * base ^ e % n := by
  induction fuel generalizing acc base e with
  | zero =>
    obtain rfl : e = 0 := by omega
    simp [modExpLoop]
  | succ fuel ih =>
    have hlt : e / 2 < 2 ^ fuel := by omega
    have square (c : Nat) : c * modMul base base n ^ (e / 2) % n = c * base ^ (2 * (e / 2)) % n := by
      rw [modMul, Nat.mul_mod, ← Nat.pow_mod, ← Nat.mul_mod, ← pow_two, ← pow_mul]
    rw [modExpLoop]
    split
    · next h => simp [h]
    · split
      · next hodd =>
        have hbits : e = 2 * (e / 2) + 1 := by omega
        calc modExpLoop fuel (modMul (acc % n) base n) (modMul base base n) (e / 2) n
            = modExpLoop fuel (acc * base % n) (modMul base base n) (e / 2) n := by rw [modMul, Nat.mod_mul_mod]
          _ = acc * base * base ^ (2 * (e / 2)) % n := (ih _ _ hlt).trans (square _)
          _ = acc * base ^ (2 * (e / 2) + 1) % n := by rw [pow_succ', mul_assoc]
          _ = acc * base ^ e % n := by rw [← hbits]
      · next heven =>
        have hbits : e = 2 * (e / 2) := by omega
        calc modExpLoop fuel (acc % n) (modMul base base n) (e / 2) n
            = acc * base ^ (2 * (e / 2)) % n := (ih _ _ hlt).trans (square _)
          _ = acc * base ^ e % n := by rw [← hbits]

/-- `ModExp` is the power modulo `n` (R245). -/
theorem modExp_eq (a e n : Nat) : modExp a e n = a ^ e % n := by
  rw [modExp, modExpLoop_eq _ _ Nat.lt_log2_self, one_mul, ← Nat.pow_mod]

end Sys2Proof.Machine
end

section
/-! Primality: the decomposition of `n - 1`, the Miller-Rabin round, and what MR_ROUND and MR_TEST write. -/

namespace Sys2Proof.Machine

/-! ### The decomposition (R210) -/

theorem splitTwos_of_odd {m : Nat} (h : m % 2 = 1) (fuel : Nat) : splitTwos fuel m = (0, m) := by
  cases fuel with
  | zero => rfl
  | succ fuel => simp [splitTwos, h]

theorem splitTwos_spec {fuel m : Nat} (hpos : 0 < m) (hlt : m < 2 ^ fuel) :
    m = 2 ^ (splitTwos fuel m).1 * (splitTwos fuel m).2 ∧ (splitTwos fuel m).2 % 2 = 1 := by
  induction fuel generalizing m with
  | zero => omega
  | succ fuel ih =>
    rcases Nat.mod_two_eq_zero_or_one m with heven | hodd
    · obtain ⟨hm, hd⟩ := ih (m := m / 2) (by omega) (by omega)
      simp only [splitTwos, heven, if_true]
      refine ⟨?_, hd⟩
      rw [pow_succ', mul_assoc, ← hm]
      omega
    · simp [splitTwos_of_odd hodd, hodd]

theorem sd_spec {n : Nat} (hn : 2 ≤ n) : n - 1 = 2 ^ (sd n).1 * (sd n).2 ∧ (sd n).2 % 2 = 1 :=
  splitTwos_spec (by omega) Nat.lt_log2_self

theorem sd_of_even {n : Nat} (hn : 2 ≤ n) (h : n % 2 = 0) : sd n = (0, n - 1) :=
  splitTwos_of_odd (by omega) _

/-- Settles O32. -/
theorem sdDecomposes : Obligations.SdDecomposes := by
  intro n hn
  obtain ⟨hprod, hodd⟩ := sd_spec hn
  refine ⟨hprod, hodd, fun hn1 _ => Nat.one_le_iff_ne_zero.mpr fun hs => ?_, fun hn0 => by simp [sd_of_even hn hn0]⟩
  rw [hs, pow_zero, one_mul] at hprod
  omega

/-! ### The round (R211) -/

/-- The `j`-th pass of the squaring loop sees the power `2 ^ (j + 1)`. -/
theorem squaringLoop_eq_true {k x n : Nat} :
    squaringLoop k (x % n) n = true ↔ ∃ j < k, x ^ 2 ^ (j + 1) % n = n - 1 := by
  induction k generalizing x with
  | zero => simp [squaringLoop]
  | succ k ih =>
    have hsquare : modMul (x % n) (x % n) n = x ^ 2 % n := by rw [modMul, ← Nat.mul_mod, pow_two]
    have hpow (j : Nat) : (x ^ 2) ^ 2 ^ (j + 1) = x ^ 2 ^ (j + 1 + 1) := by rw [← pow_mul, ← pow_succ']
    simp only [squaringLoop, hsquare, Nat.exists_lt_succ_left, zero_add, pow_one, Bool.if_true_left, Bool.or_eq_true,
      decide_eq_true_eq, ih, hpow]

theorem mrRound_eq_true {n a : Nat} :
    mrRound n a = true ↔
      a ^ (sd n).2 % n = 1 ∨ ∃ j < (sd n).1 - 1 + 1, a ^ ((sd n).2 * 2 ^ j) % n = n - 1 := by
  simp only [mrRound, modExp_eq, Bool.if_true_left, Bool.or_eq_true, decide_eq_true_eq, squaringLoop_eq_true, or_assoc,
    Nat.exists_lt_succ_left, pow_zero, pow_one, pow_mul]

/-- Settles O33: the exponents `d * 2^j` are those of `a^d` and of the squares that the loop makes of it. -/
theorem roundPassesExactlyWhen : Obligations.RoundPassesExactlyWhen := by
  intro n a _ _ _
  have hrange (j : Nat) : j < (sd n).1 - 1 + 1 ↔ j = 0 ∨ j < (sd n).1 := by omega
  simp only [mrRound_eq_true, hrange]

/-! ### MR_ROUND (R215) -/

section
variable {s : State}

theorem exec_mrRound_small (h : s.core.opN < 4) :
    exec .mrRound s = finishOk 0x20#8 { s.core with prime := smallVerdict s.core.opN } s :=
  if_pos h

theorem exec_mrRound_refused (h : 4 ≤ s.core.opN) (ha : s.core.opA < 2 ∨ s.core.opN - 2 < s.core.opA) :
    exec .mrRound s = raiseCmdError 0x20#8 .witness s :=
  (if_neg (Nat.not_lt.mpr h)).trans (if_pos ha)

theorem exec_mrRound_round (h : 4 ≤ s.core.opN) (ha2 : 2 ≤ s.core.opA) (han : s.core.opA ≤ s.core.opN - 2) :
    exec .mrRound s = finishOk 0x20#8 { s.core with prime := mrRound s.core.opN s.core.opA } s :=
  (if_neg (Nat.not_lt.mpr h)).trans (if_neg (by omega))

end

/-- Settles O34. -/
theorem mrRoundWritesTheVerdict : Obligations.MrRoundWritesTheVerdict :=
  fun _ => ⟨exec_mrRound_small, exec_mrRound_refused, exec_mrRound_round⟩

/-! ### MR_TEST (R219, R220) -/

theorem le_drawIn (lo hi x : Nat) : lo ≤ drawIn lo hi x := Nat.le_add_right _ _

theorem drawIn_le {lo hi : Nat} (h : lo ≤ hi) (x : Nat) : drawIn lo hi x ≤ hi := by
  have hx : x % (hi - lo + 1) < hi - lo + 1 := Nat.mod_lt _ (Nat.succ_pos _)
  unfold drawIn
  omega

theorem mrRounds_of_pass {n k : Nat} {ω : Nat → Nat} (h : mrRound n (drawIn 2 (n - 2) (ω 0)) = true) :
    mrRounds n (k + 1) ω =
      ((mrRounds n k fun i => ω (i + 1)).1, (mrRounds n k fun i => ω (i + 1)).2 + 1) :=
  if_pos h

theorem mrRounds_of_fail {n k : Nat} {ω : Nat → Nat} (h : mrRound n (drawIn 2 (n - 2) (ω 0)) = false) :
    mrRounds n (k + 1) ω = (false, 1) :=
  if_neg (Bool.eq_false_iff.mp h)

theorem mrRounds_of_all_pass {n k : Nat} {ω : Nat → Nat}
    (h : ∀ i < k, mrRound n (drawIn 2 (n - 2) (ω i)) = true) : mrRounds n k ω = (true, k) := by
  induction k generalizing ω with
  | zero => rfl
  | succ k ih => rw [mrRounds_of_pass (h 0 k.succ_pos), ih fun i hi => h (i + 1) (Nat.succ_lt_succ hi)]

theorem mrRounds_of_first_fail {n k j : Nat} {ω : Nat → Nat} (hj : j < k)
    (hpass : ∀ i < j, mrRound n (drawIn 2 (n - 2) (ω i)) = true)
    (hfail : mrRound n (drawIn 2 (n - 2) (ω j)) = false) : mrRounds n k ω = (false, j + 1) := by
  induction j generalizing k ω with
  | zero =>
    obtain ⟨k, rfl⟩ := Nat.exists_eq_add_one.mpr hj
    exact mrRounds_of_fail hfail
  | succ j ih =>
    obtain ⟨k, rfl⟩ := Nat.exists_eq_add_one.mpr (Nat.zero_lt_of_lt hj)
    rw [mrRounds_of_pass (hpass 0 j.succ_pos),
      ih (Nat.lt_of_succ_lt_succ hj) (fun i hi => hpass (i + 1) (Nat.succ_lt_succ hi)) hfail]

theorem mrTest_small {n : Nat} (h : n < 4) (ω : Nat → Nat) : mrTest n ω = (smallVerdict n, 0) := if_pos h

theorem mrTest_rounds {n : Nat} (h : 4 ≤ n) (ω : Nat → Nat) : mrTest n ω = mrRounds n 128 ω :=
  if_neg (Nat.not_lt.mpr h)

/-- The completion of MR_TEST, given the verdict and the number of draws of the test. -/
theorem exec_mrTest {s : State} {p : Bool} {drawn : Nat}
    (h : mrTest s.core.opN (fun k => Config.entropy (s.entropyDraws + k)) = (p, drawn)) :
    exec .mrTest s =
      finishOk 0x21#8 { s.core with prime := p } { s with entropyDraws := s.entropyDraws + drawn } := by
  rw [exec, execMrTest, mrTestCommand, h]

/-- Settles O35, by the first failing round, if there is one. -/
theorem mrTestWritesTheVerdict : Obligations.MrTestWritesTheVerdict := by
  intro s w result
  refine ⟨fun hsmall => exec_mrTest (mrTest_small hsmall _), fun hn => ⟨fun k => ?_, fun hpass => ?_, ?_⟩⟩
  · exact ⟨le_drawIn _ _ _, drawIn_le (by omega) _⟩
  · exact exec_mrTest ((mrTest_rounds hn _).trans (mrRounds_of_all_pass hpass))
  · intro j hj hpass hfail
    exact exec_mrTest ((mrTest_rounds hn _).trans (mrRounds_of_first_fail hj hpass hfail))

end Sys2Proof.Machine
end

section
/-! The modular commands: what MODMUL and MODEXP write, and the law of the kernel with its corner cases. -/

namespace Sys2Proof.Machine

section
variable {op : Byte} {result : Nat} {s : State}

theorem modCommand_of_ne_zero (h : s.core.opN ≠ 0) :
    modCommand op result s = finishOk op { s.core with opR := result } s :=
  if_neg h

theorem modCommand_of_zero (h : s.core.opN = 0) : modCommand op result s = raiseCmdError op .modZero s :=
  if_pos h

end

theorem exec_modmul (s : State) :
    exec .modmul s = modCommand 0x10#8 (s.core.opA * s.core.opB % s.core.opN) s :=
  rfl

theorem exec_modexp (s : State) :
    exec .modexp s = modCommand 0x11#8 (s.core.opA ^ s.core.opE % s.core.opN) s := by
  rw [exec, execModexp, modExp_eq]

/-- Settles O29. -/
theorem modmulWritesTheProduct : Obligations.ModmulWritesTheProduct := by
  intro s
  rw [exec_modmul]
  exact ⟨modCommand_of_ne_zero, modCommand_of_zero⟩

/-- Settles O30: the value MODEXP computes is the power, by `modExp_eq`. -/
theorem modexpWritesThePower : Obligations.ModexpWritesThePower := by
  intro s
  rw [exec_modexp]
  exact ⟨modCommand_of_ne_zero, modCommand_of_zero⟩

/-- Settles O31: the corner cases are those of the power `a ^ e % n`. -/
theorem modExpIsThePower : Obligations.ModExpIsThePower := by
  intro a e n _
  refine ⟨modExp_eq a e n, ?_, fun hn => ?_, ?_, fun he => ?_⟩
  · rw [modExp_eq, modExp_eq, ← Nat.pow_mod]
  · rw [modExp_eq, pow_zero, Nat.mod_eq_of_lt hn]
  · rw [modExp_eq, Nat.mod_one]
  · rw [modExp_eq, zero_pow (Nat.one_le_iff_ne_zero.mp he), Nat.zero_mod]

end Sys2Proof.Machine
end

section
/-! The control command: NOP writes no result (`44_control.md`). -/

namespace Sys2Proof.Machine

/-- R270: NOP completes with the CORE state it was given. -/
theorem exec_nop (s : State) : exec .nop s = finishOk 0x00#8 s.core s :=
  rfl

/-- Settles O25: the completion's four fields are all that `finishOk` changes. -/
theorem nopCompletes : Obligations.NopCompletes := by
  intro s
  rw [exec_nop, finishOk, complete]

end Sys2Proof.Machine
end

section
/-! The host's hex codec (`48_host_procedures.md` section 2, R292, R293): a text decodes exactly when it spells the
digits of the bytes. -/

namespace Sys2Proof.Machine

/-! ### One byte, one digit -/

/-- A number below 256 is the value of its byte. -/
theorem toNat_ofNat_byte {n : Nat} (h : n < 0x100) : (BitVec.ofNat 8 n).toNat = n := by
  rw [BitVec.toNat_ofNat, Nat.mod_eq_of_lt h]

theorem hexValue_hexDigit : ∀ d < 16, hexValue (hexDigit d) = some d := by decide

/-- The hex characters one by one: each has a value below 16, and its lower-case digit is the character itself unless
that is one of `A` to `F`. -/
theorem hexDigit_of_hexValue_ofNat : ∀ n < 103, ∀ d ∈ hexValue (Char.ofNat n),
    d < 16 ∧ (hexDigit d = Char.ofNat n ↔ ¬ (65 ≤ n ∧ n ≤ 70)) := by decide

theorem hexDigit_of_hexValue {c : Char} {d : Nat} (h : hexValue c = some d) :
    d < 16 ∧ (hexDigit d = c ↔ ¬ (65 ≤ c.val.toNat ∧ c.val.toNat ≤ 70)) := by
  have hc : Char.ofNat c.val.toNat = c := Char.ofNat_toNat c
  have hn : c.val.toNat < 103 := by
    by_contra hn
    rw [hexValue, if_neg (by omega), if_neg (by omega), if_neg (by omega)] at h
    cases h
  simpa only [hc] using hexDigit_of_hexValue_ofNat _ hn d (hc.symm ▸ h)

/-! ### The digits of bytes -/

/-- The two hex digits of each byte, high nibble first (R292). -/
def nibbles (bs : List Byte) : List Nat := bs.flatMap fun b => [b.toNat / 16, b.toNat % 16]

@[simp] theorem nibbles_nil : nibbles [] = [] := rfl

@[simp] theorem nibbles_cons (b : Byte) (bs : List Byte) :
    nibbles (b :: bs) = b.toNat / 16 :: b.toNat % 16 :: nibbles bs := rfl

theorem bytesToHex_eq (bs : List Byte) : bytesToHex bs = (nibbles bs).map hexDigit := by
  simp [bytesToHex, nibbles, List.map_flatMap]

theorem length_nibbles (bs : List Byte) : (nibbles bs).length = 2 * bs.length := by
  induction bs with
  | nil => rfl
  | cons b bs ih => simp only [nibbles_cons, List.length_cons, ih]; omega

theorem lt_of_mem_nibbles {bs : List Byte} {d : Nat} (h : d ∈ nibbles bs) : d < 16 := by
  obtain ⟨b, -, hd⟩ := List.mem_flatMap.mp h
  have := b.isLt
  simp only [List.mem_cons, List.not_mem_nil, or_false] at hd
  omega

theorem pairUp_nibbles (bs : List Byte) : pairUp (nibbles bs) = bs := by
  induction bs with
  | nil => rfl
  | cons b bs ih => rw [nibbles_cons, pairUp, ih, Nat.div_add_mod, BitVec.ofNat_toNat, BitVec.setWidth_eq]

theorem nibbles_pairUp : ∀ {ds : List Nat}, ds.length % 2 = 0 → (∀ d ∈ ds, d < 16) → nibbles (pairUp ds) = ds
  | [], _, _ => rfl
  | [_], h, _ => by simp at h
  | hi :: lo :: rest, h, hlt => by
    have hhi : hi < 16 := hlt hi (by simp)
    have hlo : lo < 16 := hlt lo (by simp)
    have ih : nibbles (pairUp rest) = rest :=
      nibbles_pairUp (by simp only [List.length_cons] at h; omega) fun d hd => hlt d (by simp [hd])
    rw [pairUp, nibbles_cons, ih, BitVec.toNat_ofNat, show (16 * hi + lo) % 2 ^ 8 / 16 = hi by omega,
      show (16 * hi + lo) % 2 ^ 8 % 16 = lo by omega]

/-! ### Decoding -/

/-- `HexToBytes` answers `bs` exactly for the texts whose characters have the digits of `bs` as values (R293). -/
theorem hexToBytes_eq_ok_iff {h : Text} {bs : List Byte} :
    hexToBytes h = .ok bs ↔ h.map hexValue = (nibbles bs).map some := by
  constructor
  · intro hd
    rw [hexToBytes] at hd
    split at hd
    · cases hd
    · next hany =>
      split at hd
      · cases hd
      · next heven =>
        have hvalues : h.map hexValue = (h.filterMap hexValue).map some := by
          rw [List.map_filterMap]
          refine (List.filterMap_eq_map_iff_forall_eq_some.mpr fun c hc => ?_).symm
          cases hv : hexValue c with
          | none => exact absurd (List.any_eq_true.mpr ⟨c, hc, by rw [hv]; rfl⟩) hany
          | some d => rfl
        have hlength : (h.filterMap hexValue).length = h.length := by
          simpa using (congrArg List.length hvalues).symm
        have hlt : ∀ d ∈ h.filterMap hexValue, d < 16 := by
          intro d hmem
          obtain ⟨c, -, hv⟩ := List.mem_filterMap.mp hmem
          exact (hexDigit_of_hexValue hv).1
        cases hd
        rw [nibbles_pairUp (by omega) hlt]
        exact hvalues
  · intro hv
    have hfilter : h.filterMap hexValue = nibbles bs := by
      have := congrArg (List.filterMap id) hv
      simpa [List.filterMap_map] using this
    have hlength : h.length = 2 * bs.length := by
      simpa [length_nibbles] using congrArg List.length hv
    have hany : ¬ (h.any fun c => (hexValue c).isNone) = true := by
      rw [List.any_eq_true]
      rintro ⟨c, hc, hn⟩
      have hm : hexValue c ∈ (nibbles bs).map some := hv ▸ List.mem_map_of_mem hc
      obtain ⟨d, -, hd⟩ := List.mem_map.mp hm
      rw [← hd] at hn
      cases hn
    rw [hexToBytes, if_neg hany, if_neg (by omega), hfilter, pairUp_nibbles]

/-- The lower-case text of digits has them as its values. -/
theorem map_hexValue_hexDigit {ds : List Nat} (h : ∀ d ∈ ds, d < 16) :
    (ds.map hexDigit).map hexValue = ds.map some := by
  rw [List.map_map]
  exact List.map_congr_left fun d hd => hexValue_hexDigit d (h d hd)

/-- A text is the lower-case text of its values exactly when it has no upper-case digit. -/
theorem map_hexDigit_eq_iff {h : Text} {ds : List Nat} (hv : h.map hexValue = ds.map some) :
    ds.map hexDigit = h ↔ ∀ c ∈ h, ¬ (65 ≤ c.val.toNat ∧ c.val.toNat ≤ 70) := by
  induction ds generalizing h with
  | nil => simp [List.map_eq_nil_iff.mp hv]
  | cons d ds ih =>
    obtain ⟨c, cs, rfl, hc, hcs⟩ := List.map_eq_cons_iff.mp hv
    rw [List.map_cons, List.cons.injEq, (hexDigit_of_hexValue hc).2, ih hcs, List.forall_mem_cons]

/-- Settles O50: a text that decodes to `b` has the digits of `b` as its values, and `bytesToHex b` is their lower-case
text. -/
theorem hexRoundTrip : Obligations.HexRoundTrip := by
  refine ⟨fun b => ?_, fun h b hd => ?_⟩
  · rw [hexToBytes_eq_ok_iff, bytesToHex_eq]
    exact map_hexValue_hexDigit fun _ => lt_of_mem_nibbles
  · rw [bytesToHex_eq]
    exact map_hexDigit_eq_iff (hexToBytes_eq_ok_iff.mp hd)

end Sys2Proof.Machine
end

section
/-! The host's padding (R282, R288). -/

namespace Sys2Proof.Machine

/-- `Unpad` takes off `p` bytes of value `p`, for `p` in 1..16 (R288). -/
theorem unpad_append_replicate (m : List Byte) {p : Nat} (h1 : 1 ≤ p) (h2 : p ≤ 16) :
    unpad (m ++ List.replicate p (BitVec.ofNat 8 p)) = .ok m := by
  have hvalue : (BitVec.ofNat 8 p).toNat = p := toNat_ofNat_byte (by omega)
  have hlast : (m ++ List.replicate p (BitVec.ofNat 8 p)).getLastD 0x00#8 = BitVec.ofNat 8 p := by
    obtain ⟨k, rfl⟩ : ∃ k, p = k + 1 := ⟨p - 1, by omega⟩
    rw [List.replicate_succ', ← List.append_assoc, List.getLastD_concat]
  have hlength : (m ++ List.replicate p (BitVec.ofNat 8 p)).length - p = m.length := by simp
  have hall : ((List.replicate p (BitVec.ofNat 8 p)).any fun b => b.toNat != p) = false := by
    simp [hvalue]
  simp only [unpad, hlast, hvalue, hlength, List.drop_left, List.take_left, hall]
  rw [if_neg (by omega)]
  rfl

/-- Settles O51. -/
theorem unpadInvertsPad : Obligations.UnpadInvertsPad := by
  refine fun m => ⟨unpad_append_replicate m (by omega) (by omega), ?_⟩
  rw [pad, List.length_append, List.length_replicate]
  omega

end Sys2Proof.Machine
end

section
/-! The host's UTF-8 codec (R290, R291): the decoder reads one character of an encoded text at a time. -/

namespace Sys2Proof.Machine

/-! ### Well-formed sequences -/

@[simp] theorem byteNat_cons_zero (b : Byte) (bs : List Byte) : byteNat (b :: bs) 0 = b.toNat := rfl

@[simp] theorem byteNat_cons_one (b c : Byte) (bs : List Byte) : byteNat (b :: c :: bs) 1 = c.toNat := rfl

@[simp] theorem byteNat_cons_two (b c d : Byte) (bs : List Byte) : byteNat (b :: c :: d :: bs) 2 = d.toNat := rfl

section
variable {b b1 b2 b3 : Byte} {lo hi : Nat}

theorem utf8Next_one (rest : List Byte) (h : b.toNat < 0x80) : utf8Next b rest = (some (Char.ofNat b.toNat), 1) := by
  rw [utf8Next, if_pos h]

theorem utf8Next_two (rest : List Byte) (hb : ¬ b.toNat < 0x80) (hl : utf8Lead b.toNat = some (lo, hi, 2))
    (h1 : lo ≤ b1.toNat ∧ b1.toNat ≤ hi) :
    utf8Next b (b1 :: rest) = (some (Char.ofNat (b.toNat % 0x20 * 0x40 + b1.toNat % 0x40)), 2) := by
  simp [utf8Next, hb, hl, h1]

theorem utf8Next_three (rest : List Byte) (hb : ¬ b.toNat < 0x80) (hl : utf8Lead b.toNat = some (lo, hi, 3))
    (h1 : lo ≤ b1.toNat ∧ b1.toNat ≤ hi) (h2 : isContinuation b2.toNat = true) :
    utf8Next b (b1 :: b2 :: rest) =
      (some (Char.ofNat (b.toNat % 0x10 * 0x1000 + b1.toNat % 0x40 * 0x40 + b2.toNat % 0x40)), 3) := by
  simp [utf8Next, hb, hl, h1, h2]

theorem utf8Next_four (rest : List Byte) (hb : ¬ b.toNat < 0x80) (hl : utf8Lead b.toNat = some (lo, hi, 4))
    (h1 : lo ≤ b1.toNat ∧ b1.toNat ≤ hi) (h2 : isContinuation b2.toNat = true) (h3 : isContinuation b3.toNat = true) :
    utf8Next b (b1 :: b2 :: b3 :: rest) =
      (some (Char.ofNat (b.toNat % 0x08 * 0x40000 + b1.toNat % 0x40 * 0x1000 + b2.toNat % 0x40 * 0x40
        + b3.toNat % 0x40)), 4) := by
  simp [utf8Next, hb, hl, h1, h2, h3]

end

theorem isContinuation_add {d : Nat} (h : d < 0x40) : isContinuation (0x80 + d) = true := by
  rw [isContinuation, decide_eq_true_iff]
  omega

/-! ### The second byte of an encoded character -/

theorem utf8Lead_two {d : Nat} (h1 : 2 ≤ d) (h2 : d < 0x20) : utf8Lead (0xC0 + d) = some (0x80, 0xBF, 2) := by
  rw [utf8Lead, if_pos (by omega)]

/-- The lead byte of a three-byte character lets its second byte pass: no overlong form, no surrogate. -/
theorem utf8Lead_three {n : Nat} (h1 : 0x800 ≤ n) (h2 : n < 0x10000) (hs : n < 0xD800 ∨ 0xDFFF < n) :
    ∃ lo hi, utf8Lead (0xE0 + n / 0x1000) = some (lo, hi, 3) ∧
      lo ≤ 0x80 + n / 0x40 % 0x40 ∧ 0x80 + n / 0x40 % 0x40 ≤ hi := by
  by_cases hlow : n / 0x1000 = 0
  · exact ⟨0xA0, 0xBF, by rw [hlow]; rfl, by omega⟩
  by_cases hsurr : n / 0x1000 = 0xD
  · exact ⟨0x80, 0x9F, by rw [hsurr]; rfl, by omega⟩
  refine ⟨0x80, 0xBF, ?_, by omega⟩
  rw [utf8Lead, if_neg (by omega), if_neg (by omega), if_neg (by omega), if_pos (by omega)]

/-- The lead byte of a four-byte character lets its second byte pass: no overlong form, nothing above 0x10FFFF. -/
theorem utf8Lead_four {n : Nat} (h1 : 0x10000 ≤ n) (h2 : n < 0x110000) :
    ∃ lo hi, utf8Lead (0xF0 + n / 0x40000) = some (lo, hi, 4) ∧
      lo ≤ 0x80 + n / 0x1000 % 0x40 ∧ 0x80 + n / 0x1000 % 0x40 ≤ hi := by
  by_cases hlow : n / 0x40000 = 0
  · exact ⟨0x90, 0xBF, by rw [hlow]; rfl, by omega⟩
  by_cases hhigh : n / 0x40000 = 4
  · exact ⟨0x80, 0x8F, by rw [hhigh]; rfl, by omega⟩
  refine ⟨0x80, 0xBF, ?_, by omega⟩
  rw [utf8Lead, if_neg (by omega), if_neg (by omega), if_neg (by omega), if_neg (by omega), if_neg (by omega),
    if_pos (by omega)]

/-! ### Decoding an encoded text -/

/-- The decoder reads back a character it finds encoded, whatever follows (R290, R291). -/
theorem utf8Next_encodeChar (c : Char) :
    ∃ b bs, utf8EncodeChar c = b :: bs ∧ ∀ rest, utf8Next b (bs ++ rest) = (some c, bs.length + 1) := by
  obtain ⟨n, hn⟩ : ∃ n, n = c.val.toNat := ⟨_, rfl⟩
  have hc {m : Nat} (h : m = n) : Char.ofNat m = c := by rw [h, hn]; exact Char.ofNat_toNat c
  have hvalid : n < 0xD800 ∨ 0xDFFF < n ∧ n < 0x110000 := hn ▸ c.valid
  have cont (k : Nat) : (BitVec.ofNat 8 (0x80 + k % 0x40)).toNat = 0x80 + k % 0x40 := toNat_ofNat_byte (by omega)
  have hcont (k : Nat) : isContinuation (BitVec.ofNat 8 (0x80 + k % 0x40)).toNat = true := by
    rw [cont]
    exact isContinuation_add (Nat.mod_lt _ (by decide))
  simp only [utf8EncodeChar, ← hn]
  split
  · have hb : (BitVec.ofNat 8 n).toNat = n := toNat_ofNat_byte (by omega)
    refine ⟨_, _, rfl, fun rest => ?_⟩
    rw [List.nil_append, utf8Next_one rest (by omega), hb, hc rfl, List.length_nil]
  split
  · have hb : (BitVec.ofNat 8 (0xC0 + n / 0x40)).toNat = 0xC0 + n / 0x40 := toNat_ofNat_byte (by omega)
    refine ⟨_, _, rfl, fun rest => ?_⟩
    have hnext := utf8Next_two rest (b := BitVec.ofNat 8 (0xC0 + n / 0x40)) (b1 := BitVec.ofNat 8 (0x80 + n % 0x40))
      (by omega) (hb ▸ utf8Lead_two (by omega) (by omega)) (by rw [cont]; omega)
    rw [hb, cont, hc (by omega)] at hnext
    exact hnext
  split
  · have hb : (BitVec.ofNat 8 (0xE0 + n / 0x1000)).toNat = 0xE0 + n / 0x1000 := toNat_ofNat_byte (by omega)
    obtain ⟨lo, hi, hlead, hsecond⟩ := utf8Lead_three (n := n) (by omega) (by omega) (by omega)
    refine ⟨_, _, rfl, fun rest => ?_⟩
    have hnext := utf8Next_three rest (b := BitVec.ofNat 8 (0xE0 + n / 0x1000))
      (b1 := BitVec.ofNat 8 (0x80 + n / 0x40 % 0x40)) (by omega) (hb ▸ hlead) (by rw [cont]; exact hsecond) (hcont n)
    rw [hb, cont, cont, hc (by omega)] at hnext
    exact hnext
  · have hb : (BitVec.ofNat 8 (0xF0 + n / 0x40000)).toNat = 0xF0 + n / 0x40000 := toNat_ofNat_byte (by omega)
    obtain ⟨lo, hi, hlead, hsecond⟩ := utf8Lead_four (n := n) (by omega) (by omega)
    refine ⟨_, _, rfl, fun rest => ?_⟩
    have hnext := utf8Next_four rest (b := BitVec.ofNat 8 (0xF0 + n / 0x40000))
      (b1 := BitVec.ofNat 8 (0x80 + n / 0x1000 % 0x40)) (by omega) (hb ▸ hlead) (by rw [cont]; exact hsecond)
      (hcont (n / 0x40)) (hcont n)
    rw [hb, cont, cont, cont, hc (by omega)] at hnext
    exact hnext

/-- A round of the decoder's loop that finds a well-formed sequence takes its character (R291). -/
theorem utf8Loop_cons {policy : Utf8Policy} {fuel len : Nat} {b : Byte} {bs : List Byte} {c : Char}
    (h : utf8Next b bs = (some c, len)) :
    utf8Loop policy (fuel + 1) (b :: bs) = (utf8Loop policy fuel (bs.drop (len - 1))).map (c :: ·) := by
  simp only [utf8Loop, h]

theorem utf8Loop_encode (policy : Utf8Policy) (p : Text) {fuel : Nat} (h : (utf8Encode p).length ≤ fuel) :
    utf8Loop policy fuel (utf8Encode p) = .ok p := by
  induction p generalizing fuel with
  | nil => cases fuel <;> rfl
  | cons c p ih =>
    obtain ⟨b, bs, hb, hnext⟩ := utf8Next_encodeChar c
    have hcons : utf8Encode (c :: p) = b :: (bs ++ utf8Encode p) := by
      rw [utf8Encode, List.flatMap_cons, hb]
      rfl
    rw [hcons, List.length_cons, List.length_append] at h
    obtain ⟨fuel, rfl⟩ : ∃ k, fuel = k + 1 := ⟨fuel - 1, by omega⟩
    rw [hcons, utf8Loop_cons (hnext _), Nat.add_sub_cancel, List.drop_left, ih (by omega)]
    rfl

/-- Settles O52. -/
theorem utf8RoundTrip : Obligations.Utf8RoundTrip := fun policy p => utf8Loop_encode policy p le_rfl

end Sys2Proof.Machine
end

section
/-! The host's big-endian forms (R295, R308), through Mathlib's little-endian `Nat.digits`. -/

namespace Sys2Proof.Machine

/-! ### Digits -/

/-- The loop of the digits makes `Nat.digits`, most significant digit first. -/
theorem digitsBE_eq {base fuel x : Nat} (hb : 1 < base) (hx : x < base ^ fuel) (acc : List Nat) :
    digitsBE base fuel x acc = (Nat.digits base x).reverse ++ acc := by
  induction fuel generalizing x acc with
  | zero =>
    obtain rfl : x = 0 := by simpa using hx
    simp [digitsBE]
  | succ fuel ih =>
    rw [digitsBE]
    split
    · next h => simp [h]
    · next h =>
      rw [pow_succ'] at hx
      rw [ih (Nat.div_lt_of_lt_mul hx), Nat.digits_def' hb (Nat.pos_of_ne_zero h)]
      simp

theorem lt_two_pow_bitLen (x : Nat) : x < 2 ^ bitLen x := by
  rw [bitLen]
  split
  · next h => simp [h]
  · exact Nat.lt_log2_self

/-- `bitlen(x)` rounds are enough for the digits of `x` in any base. -/
theorem digitsBE_bitLen {base : Nat} (hb : 1 < base) (x : Nat) :
    digitsBE base (bitLen x) x [] = (Nat.digits base x).reverse := by
  rw [digitsBE_eq hb ((lt_two_pow_bitLen x).trans_le (Nat.pow_le_pow_left hb _)), List.append_nil]

/-- The byte string of a number other than 0 (R295). -/
theorem minBytes_eq {x : Nat} (h : x ≠ 0) : minBytes x = (Nat.digits 256 x).reverse.map (BitVec.ofNat 8) := by
  rw [minBytes, if_neg h, digitsBE_bitLen (by decide)]

/-! ### The shortest form (R295) -/

theorem length_minBytes {x : Nat} (h : x ≠ 0) : (minBytes x).length = (Nat.digits 256 x).length := by
  rw [minBytes_eq h, List.length_map, List.length_reverse]

theorem beInt_eq_ofDigits (bs : List Byte) : beInt bs = Nat.ofDigits 256 (bs.reverse.map BitVec.toNat) := by
  rw [beInt, Nat.ofDigits_eq_foldr, List.foldr_map, List.foldr_reverse]
  simp only [Nat.cast_id, Nat.add_comm]

theorem beInt_minBytes (x : Nat) : beInt (minBytes x) = x := by
  by_cases h : x = 0
  · subst h; rfl
  · have hbytes : ((minBytes x).reverse.map BitVec.toNat) = Nat.digits 256 x := by
      rw [minBytes_eq h, ← List.map_reverse, List.reverse_reverse, List.map_map]
      exact (List.map_congr_left fun d hd => toNat_ofNat_byte (Nat.digits_lt_base (by decide) hd)).trans (List.map_id _)
    rw [beInt_eq_ofDigits, hbytes, Nat.ofDigits_digits]

theorem beInt_lt (bs : List Byte) : beInt bs < 256 ^ bs.length := by
  rw [beInt_eq_ofDigits]
  refine (Nat.ofDigits_lt_base_pow_length (by decide) fun d hd => ?_).trans_eq (by simp)
  obtain ⟨b, -, rfl⟩ := List.mem_map.mp hd
  exact b.isLt

/-- A byte has eight bits, so `x` has `ceil(bitlen(x) / 8)` bytes. -/
theorem length_digits_256 {x : Nat} (h : x ≠ 0) : (Nat.digits 256 x).length = (bitLen x + 7) / 8 := by
  have hlog : Nat.log 256 x = Nat.log2 x / 8 := by
    rw [Nat.log2_eq_log_two, ← Nat.log_pow_left]
  rw [Nat.length_digits _ _ (by decide) h, hlog, bitLen, if_neg h]
  omega

/-- Settles O53. -/
theorem minBytesIsShortest : Obligations.MinBytesIsShortest := by
  refine fun x => ⟨beInt_minBytes x, ?_, fun b hb hx => ?_⟩
  · by_cases h : x = 0
    · subst h; rfl
    · rw [length_minBytes h, length_digits_256 h, bitLen, if_neg h]
      omega
  · have hpos := List.length_pos_iff.mpr hb
    by_cases h : x = 0
    · subst h; exact hpos
    · rw [length_minBytes h, Nat.digits_length_le_iff (by decide)]
      exact hx ▸ beInt_lt b

/-! ### The hex step of RSA decryption (R308) -/

theorem nibbles_append (as bs : List Byte) : nibbles (as ++ bs) = nibbles as ++ nibbles bs := List.flatMap_append ..

/-- The hex digits of a number, with a zero above them if their count is odd, are the nibbles of its bytes. -/
theorem nibbles_digits (x : Nat) :
    nibbles ((Nat.digits 256 x).reverse.map (BitVec.ofNat 8)) =
      List.replicate ((Nat.digits 16 x).length % 2) 0 ++ (Nat.digits 16 x).reverse := by
  induction x using Nat.strong_induction_on with
  | _ x ih =>
    by_cases h0 : x = 0
    · subst h0; rfl
    have hbyte : nibbles [BitVec.ofNat 8 (x % 256)] = [x / 16 % 16, x % 16] := by
      rw [nibbles, List.flatMap_singleton, toNat_ofNat_byte (Nat.mod_lt _ (by decide)),
        show x % 256 / 16 = x / 16 % 16 by omega, show x % 256 % 16 = x % 16 by omega]
    have hlow : Nat.digits 16 x = x % 16 :: Nat.digits 16 (x / 16) := Nat.digits_def' (by decide) (by omega)
    rw [Nat.digits_def' (by decide) (Nat.pos_of_ne_zero h0), List.reverse_cons, List.map_append, List.map_singleton,
      nibbles_append, ih _ (by omega), hbyte, hlow]
    by_cases h1 : x / 16 = 0
    · have h2 : x / 256 = 0 := by omega
      simp [h1, h2]
    · have hhigh : Nat.digits 16 (x / 16) = x / 16 % 16 :: Nat.digits 16 (x / 256) := by
        rw [Nat.digits_def' (by decide) (Nat.pos_of_ne_zero h1), Nat.div_div_eq_div_mul]
      simp [hhigh, Nat.add_assoc]

/-- Settles O54. -/
theorem decryptedChunkIsMinBytes : Obligations.DecryptedChunkIsMinBytes := by
  intro m
  have heven : evenHexOfNat m = (nibbles (minBytes m)).map hexDigit := by
    by_cases h : m = 0
    · subst h; rfl
    · rw [minBytes_eq h, nibbles_digits, evenHexOfNat, hexOfNat, if_neg h, digitsBE_bitLen (by decide), List.length_map,
        List.length_reverse]
      obtain hodd | heven := Nat.mod_two_eq_zero_or_one (Nat.digits 16 m).length
      · simp [hodd]
      · simp [heven]
  rw [hexToBytes_eq_ok_iff, heven]
  exact map_hexValue_hexDigit fun _ => lt_of_mem_nibbles

end Sys2Proof.Machine
end

section
/-! Key generation on the host (R300 to R304): the extended Euclidean algorithm, the exponents of a key pair, and RSA
decryption. -/

namespace Sys2Proof.Machine

/-! ### The extended Euclidean algorithm (R303) -/

/-- The loop keeps `a * x + b * y = r` for both remainders and their greatest common divisor; its rounds are enough
when they exceed the second remainder, which gets smaller in each. -/
theorem extEuclidLoop_spec {a b x0 x1 y0 y1 : Int} {fuel r0 r1 : Nat} (hf : r1 < fuel) (h0 : a * x0 + b * y0 = r0)
    (h1 : a * x1 + b * y1 = r1) :
    ∃ x y, extEuclidLoop fuel r0 r1 x0 x1 y0 y1 = ((Nat.gcd r0 r1 : Int), x, y) ∧ a * x + b * y = Nat.gcd r0 r1 := by
  induction fuel generalizing r0 r1 x0 x1 y0 y1 with
  | zero => omega
  | succ fuel ih =>
    rw [extEuclidLoop]
    by_cases h : r1 = 0
    · subst h
      exact ⟨x0, y0, by simp, by simpa using h0⟩
    · have hrem : (r0 : Int) - r0 / r1 * r1 = ((r0 % r1 : Nat) : Int) := by
        rw [Int.natCast_mod, Int.emod_def, mul_comm]
      have hlt : r0 % r1 < fuel := by
        have := Nat.mod_lt r0 (Nat.pos_of_ne_zero h)
        omega
      rw [if_neg (by exact_mod_cast h), hrem, Nat.gcd_comm, Nat.gcd_rec, Nat.gcd_comm]
      refine ih hlt h1 ?_
      rw [← hrem, ← h0, ← h1]
      ring

theorem extEuclid_spec (a b : Nat) :
    ∃ x y : Int, extEuclid a b = ((Nat.gcd a b : Int), x, y) ∧ (a : Int) * x + b * y = Nat.gcd a b :=
  extEuclidLoop_spec (Nat.lt_succ_self b) (by ring) (by ring)

/-- Settles O55. -/
theorem extEuclidIsBezout : Obligations.ExtEuclidIsBezout := by
  intro a b
  obtain ⟨x, y, he, hb⟩ := extEuclid_spec a b
  rw [he]
  exact ⟨hb, rfl⟩

/-! ### The exponents of a key pair (R302, R304) -/

/-- The inverse of `e` modulo `m` (R303), below `m`. -/
theorem modInverse_spec {e m : Nat} (hm : 0 < m) (hg : hostGcd e m = 1) :
    e * modInverse e m ≡ 1 [MOD m] ∧ modInverse e m < m := by
  obtain ⟨x, y, he, hb⟩ := extEuclid_spec e m
  have hpos : (0 : Int) < m := by exact_mod_cast hm
  rw [hostGcd, he] at hg
  have hd : ((modInverse e m : Nat) : Int) = x % m := by
    rw [modInverse, he, Int.toNat_of_nonneg (Int.emod_nonneg _ hpos.ne')]
  constructor
  · rw [← Int.natCast_modEq_iff, Nat.cast_mul, hd]
    calc (e : Int) * (x % m) ≡ e * x [ZMOD m] := (Int.mod_modEq x m).mul_left e
      _ ≡ e * x + m * y [ZMOD m] := Int.modEq_add_fac_self.symm
      _ = 1 := hb.trans hg
  · exact_mod_cast hd ▸ Int.emod_lt_of_pos x hpos

/-- What a key pair is made of (R302). -/
theorem keyPairOf_eq_ok {p q : Nat} {k : KeyPair} (h : keyPairOf p q = .ok k) :
    hostGcd 65537 ((p - 1) * (q - 1)) = 1 ∧ k = ⟨p * q, 65537, modInverse 65537 ((p - 1) * (q - 1))⟩ := by
  rw [keyPairOf] at h
  split at h
  · cases h
  · next hg => exact ⟨not_not.mp hg, (Except.ok.inj h).symm⟩

/-! ### RSA decryption (R248, R304) -/

/-- Fermat: a power whose exponent is 1 modulo `p - 1` is the base modulo `p`, also when that is a multiple of `p`. -/
theorem pow_modEq_self {p ed : Nat} (hp : p.Prime) (m : Nat) (hpos : 1 ≤ ed) (h : ed ≡ 1 [MOD p - 1]) :
    m ^ ed ≡ m [MOD p] := by
  have := Fact.mk hp
  obtain ⟨k, hk⟩ := (Nat.modEq_iff_dvd' hpos).mp h.symm
  rw [← ZMod.natCast_eq_natCast_iff, Nat.cast_pow]
  by_cases h0 : (m : ZMod p) = 0
  · rw [h0, zero_pow (by omega)]
  · rw [show ed = (p - 1) * k + 1 by omega, pow_succ, pow_mul, ZMod.pow_card_sub_one_eq_one h0, one_pow, one_mul]

/-- Settles O57: the product of the exponents is 1 modulo `p - 1` and modulo `q - 1`, and `p` and `q` are coprime. -/
theorem rsaRoundTrip : Obligations.RsaRoundTrip := by
  intro p q m k hp hq hpq hk hm
  have hphi : 1 < (p - 1) * (q - 1) := by
    have hp2 := hp.two_le
    have hq2 := hq.two_le
    rw [Nat.one_lt_mul_iff]
    omega
  obtain ⟨hg, rfl⟩ := keyPairOf_eq_ok hk
  obtain ⟨hinv, -⟩ := modInverse_spec (by omega) hg
  have hpos : 1 ≤ 65537 * modInverse 65537 ((p - 1) * (q - 1)) := by
    rw [Nat.one_le_iff_ne_zero]
    intro h0
    rw [h0] at hinv
    exact absurd hinv (by rw [Nat.ModEq, Nat.zero_mod, Nat.mod_eq_of_lt hphi]; decide)
  rw [modExp_eq, modExp_eq, ← Nat.pow_mod, ← pow_mul]
  have hmod : m ^ (65537 * modInverse 65537 ((p - 1) * (q - 1))) ≡ m [MOD p * q] :=
    (Nat.modEq_and_modEq_iff_modEq_mul ((Nat.coprime_primes hp hq).mpr hpq)).mp
      ⟨pow_modEq_self hp m hpos hinv.of_mul_right, pow_modEq_self hq m hpos hinv.of_mul_left⟩
  exact Nat.mod_eq_of_modEq hmod hm

/-! ### The pairs that key generation returns (R300 to R302) -/

/-- A candidate is odd and has exactly `bits` bits (R300). -/
theorem primeCandidate_spec {bits : Nat} (hb : 1 ≤ bits) (x : Nat) :
    primeCandidate bits x % 2 = 1 ∧ 2 ^ (bits - 1) ≤ primeCandidate bits x ∧ primeCandidate bits x < 2 ^ bits := by
  rw [primeCandidate]
  refine ⟨?_, ?_, ?_⟩
  · exact Nat.or_mod_two_eq_one.mpr (.inr rfl)
  · exact Nat.right_le_or.trans Nat.left_le_or
  · exact Nat.or_lt_two_pow (Nat.or_lt_two_pow (Nat.mod_lt _ (by positivity))
      (Nat.pow_lt_pow_right (by decide) (by omega))) (Nat.one_lt_two_pow (by omega))

/-- What a sequence of two procedures answers, the second answers after an answer of the first. -/
theorem runHost_bind_eq_ok {α β : Type} {p : HostM α} {f : α → HostM β} {s u : State} {b : β}
    (h : runHost (p >>= f) s = (.ok b, u)) : ∃ a t, runHost p s = (.ok a, t) ∧ runHost (f a) t = (.ok b, u) := by
  rw [runHost_bind] at h
  split at h
  · next a t hp => exact ⟨a, t, hp, h⟩
  · cases h

theorem runHost_pure_eq_ok {α : Type} {a b : α} {s t : State} (h : runHost (pure a : HostM α) s = (.ok b, t)) :
    a = b := by
  rw [runHost_pure] at h
  cases h
  rfl

/-- A check answers its result and leaves the machine. -/
theorem runHost_hostCheck {α : Type} (x : Except HostFailure α) (s : State) : runHost (hostCheck x) s = (x, s) := by
  cases x <;> rfl

section
variable {bits : Nat} {s t : State}

/-- A search answers a candidate. -/
theorem candidate_of_genPrime {draws rest : List Nat} {p : Nat}
    (h : runHost (genPrime bits draws) s = (.ok (some (p, rest)), t)) : ∃ x, p = primeCandidate bits x := by
  induction draws generalizing s with
  | nil => cases runHost_pure_eq_ok h
  | cons x draws ih =>
    rw [genPrime] at h
    obtain ⟨passes, u, -, h⟩ := runHost_bind_eq_ok h
    cases passes with
    | false => exact ih h
    | true => cases runHost_pure_eq_ok h; exact ⟨x, rfl⟩

theorem candidate_of_searchInSequence {draws : List Nat} {p q : Nat}
    (h : runHost (searchInSequence bits draws) s = (.ok (some (p, q)), t)) :
    ∃ x y, p = primeCandidate bits x ∧ q = primeCandidate bits y := by
  rw [searchInSequence] at h
  obtain ⟨_ | ⟨p', draws'⟩, u, hp, h⟩ := runHost_bind_eq_ok h
  · cases runHost_pure_eq_ok h
  obtain ⟨_ | ⟨q', draws''⟩, v, hq, h⟩ := runHost_bind_eq_ok h
  · cases runHost_pure_eq_ok h
  cases runHost_pure_eq_ok h
  obtain ⟨x, hx⟩ := candidate_of_genPrime hp
  obtain ⟨y, hy⟩ := candidate_of_genPrime hq
  exact ⟨x, y, hx, hy⟩

/-- What a search has found is a candidate. -/
def FoundCandidate (bits : Nat) (search : PrimeSearch) : Prop :=
  ∀ p, search.found = some p → ∃ x, p = primeCandidate bits x

theorem foundCandidate_none (draws : List Nat) : FoundCandidate bits ⟨draws, none⟩ := fun _ h => nomatch h

/-- A turn keeps what a search has found a candidate (R301). -/
theorem foundCandidate_turn {search search' : PrimeSearch} (hs : FoundCandidate bits search)
    (h : runHost (search.turn bits) s = (.ok search', t)) : FoundCandidate bits search' := by
  obtain ⟨draws, found⟩ := search
  cases found with
  | some p => cases runHost_pure_eq_ok h; exact hs
  | none =>
    cases draws with
    | nil => cases runHost_pure_eq_ok h; exact hs
    | cons x draws =>
      rw [PrimeSearch.turn] at h
      obtain ⟨passes, u, -, h⟩ := runHost_bind_eq_ok h
      cases runHost_pure_eq_ok h
      intro p hp
      cases passes with
      | false => cases hp
      | true => cases hp; exact ⟨x, rfl⟩

theorem candidate_of_searchByTurns {turns : List Searcher} {sp sq : PrimeSearch} {p q : Nat}
    (hsp : FoundCandidate bits sp) (hsq : FoundCandidate bits sq)
    (h : runHost (searchByTurns bits turns sp sq) s = (.ok (some (p, q)), t)) :
    ∃ x y, p = primeCandidate bits x ∧ q = primeCandidate bits y := by
  induction turns generalizing s sp sq with
  | nil =>
    obtain ⟨draws, _ | p'⟩ := sp
    · cases runHost_pure_eq_ok h
    obtain ⟨draws', _ | q'⟩ := sq
    · cases runHost_pure_eq_ok h
    cases runHost_pure_eq_ok h
    obtain ⟨x, hx⟩ := hsp p rfl
    obtain ⟨y, hy⟩ := hsq q rfl
    exact ⟨x, y, hx, hy⟩
  | cons turn turns ih =>
    cases turn with
    | p =>
      obtain ⟨sp', u, hturn, h⟩ := runHost_bind_eq_ok h
      exact ih (foundCandidate_turn hsp hturn) hsq h
    | q =>
      obtain ⟨sq', u, hturn, h⟩ := runHost_bind_eq_ok h
      exact ih hsp (foundCandidate_turn hsq hturn) h

theorem candidate_of_findPrimes {mode : SearchMode} {p q : Nat}
    (h : runHost (findPrimes bits mode) s = (.ok (some (p, q)), t)) :
    ∃ x y, p = primeCandidate bits x ∧ q = primeCandidate bits y := by
  cases mode with
  | sequential draws => exact candidate_of_searchInSequence h
  | parallel drawsP drawsQ turns => exact candidate_of_searchByTurns (foundCandidate_none _) (foundCandidate_none _) h

/-- A pair that `GenKeyPair` returns is made of two candidates (R302). -/
theorem candidates_of_genKeyPair {mode : SearchMode} {k : KeyPair}
    (h : runHost (genKeyPair bits mode) s = (.ok (some k), t)) :
    ∃ x y, keyPairOf (primeCandidate (bits / 2) x) (primeCandidate (bits / 2) y) = .ok k := by
  obtain ⟨_ | ⟨p, q⟩, u, hprimes, h⟩ := runHost_bind_eq_ok h
  · cases runHost_pure_eq_ok h
  obtain ⟨k', v, hk, h⟩ := runHost_bind_eq_ok h
  cases runHost_pure_eq_ok h
  rw [runHost_hostCheck] at hk
  obtain ⟨x, y, rfl, rfl⟩ := candidate_of_findPrimes hprimes
  exact ⟨x, y, congrArg Prod.fst hk⟩

end

/-- A candidate of two bits or more is at least 3: it is odd. -/
theorem three_le_primeCandidate {bits : Nat} (hb : 2 ≤ bits) (x : Nat) : 3 ≤ primeCandidate bits x := by
  obtain ⟨hodd, hle, -⟩ := primeCandidate_spec (show 1 ≤ bits by omega) x
  have := Nat.pow_le_pow_right (show 0 < 2 by decide) (show 1 ≤ bits - 1 by omega)
  omega

/-- Settles O56. -/
theorem keyPairExponentsInvert : Obligations.KeyPairExponentsInvert := by
  refine ⟨fun p q k hp hq hk => ?_, fun bits mode k s t hb _ h => ?_⟩
  · obtain ⟨hg, rfl⟩ := keyPairOf_eq_ok hk
    have hphi : 1 < (p - 1) * (q - 1) := by
      rw [Nat.one_lt_mul_iff]
      omega
    obtain ⟨hinv, hlt⟩ := modInverse_spec (by omega) hg
    exact ⟨rfl, rfl, Nat.mod_eq_of_modEq hinv hphi, hlt⟩
  · obtain ⟨x, y, hk⟩ := candidates_of_genKeyPair h
    refine ⟨_, _, three_le_primeCandidate (by omega) x, three_le_primeCandidate (by omega) y, hk, ?_⟩
    rintro _ (rfl | rfl) <;> exact primeCandidate_spec (by omega) _

end Sys2Proof.Machine
end

section
/-! Host runs (R280): the answer to an earlier access changes nothing, so neither does the latency of a command (R385);
and a whole run of MODEXP. -/

namespace Sys2Proof.Machine

/-! ### The latency (R385) -/

/-- The machine with another answer to the latest host access. -/
def State.withResponse (s : State) (r : Option Response) : State := { s with response := r }

section
variable {s t : State}

theorem finishOk_withResponse {op : Byte} {c : CoreState} (r : Option Response) (h : finishOk op c s = .next t) :
    finishOk op c (s.withResponse r) = .next (t.withResponse r) := by
  cases h
  rfl

theorem raiseCmdError_withResponse {op : Byte} {e : ErrCode} (r : Option Response)
    (h : raiseCmdError op e s = .next t) : raiseCmdError op e (s.withResponse r) = .next (t.withResponse r) := by
  cases h
  rfl

theorem blockCommand_withResponse {op : Byte} {f : AesState → Vector AesState 11 → AesState} (r : Option Response)
    (h : blockCommand op f s = .next t) : blockCommand op f (s.withResponse r) = .next (t.withResponse r) := by
  cases hk : s.core.keyValid with
  | true =>
    rw [blockCommand_of_keyValid hk] at h
    exact (blockCommand_of_keyValid (s := s.withResponse r) hk).trans (finishOk_withResponse r h)
  | false =>
    rw [blockCommand_of_keyInvalid hk] at h
    exact (blockCommand_of_keyInvalid (s := s.withResponse r) hk).trans (raiseCmdError_withResponse r h)

theorem modCommand_withResponse {op : Byte} {result : Nat} (r : Option Response)
    (h : modCommand op result s = .next t) : modCommand op result (s.withResponse r) = .next (t.withResponse r) := by
  by_cases hn : s.core.opN = 0
  · rw [modCommand_of_zero hn] at h
    exact (modCommand_of_zero (s := s.withResponse r) hn).trans (raiseCmdError_withResponse r h)
  · rw [modCommand_of_ne_zero hn] at h
    exact (modCommand_of_ne_zero (s := s.withResponse r) hn).trans (finishOk_withResponse r h)

/-- No command looks at the answer to an earlier access. -/
theorem exec_withResponse {i : Instr} (r : Option Response) (h : exec i s = .next t) :
    exec i (s.withResponse r) = .next (t.withResponse r) := by
  cases i with
  | nop => exact finishOk_withResponse r h
  | aesKeyexp => exact finishOk_withResponse r h
  | aesEnc => exact blockCommand_withResponse r h
  | aesDec => exact blockCommand_withResponse r h
  | modmul => exact modCommand_withResponse r h
  | modexp => exact modCommand_withResponse r h
  | mrRound =>
    by_cases hn : s.core.opN < 4
    · rw [exec_mrRound_small hn] at h
      exact (exec_mrRound_small (s := s.withResponse r) hn).trans (finishOk_withResponse r h)
    by_cases ha : s.core.opA < 2 ∨ s.core.opN - 2 < s.core.opA
    · rw [exec_mrRound_refused (by omega) ha] at h
      exact (exec_mrRound_refused (s := s.withResponse r) (Nat.not_lt.mp hn) ha).trans (raiseCmdError_withResponse r h)
    · rw [exec_mrRound_round (by omega) (by omega) (by omega)] at h
      have ha2 : 2 ≤ s.core.opA := by omega
      have han : s.core.opA ≤ s.core.opN - 2 := by omega
      exact (exec_mrRound_round (s := s.withResponse r) (Nat.not_lt.mp hn) ha2 han).trans (finishOk_withResponse r h)
  | mrTest => cases h; rfl

theorem sequencerTurn_withResponse {v : Word} (hp : s.core.phase = .busy v) (r : Option Response)
    (h : sequencerTurn s = .next t) : sequencerTurn (s.withResponse r) = .next (t.withResponse r) := by
  have hp' : (s.withResponse r).core.phase = .busy v := hp
  cases hd : decode v with
  | none =>
    rw [sequencerTurn_illegal hp hd] at h
    exact (sequencerTurn_illegal hp' hd).trans (raiseCmdError_withResponse r h)
  | some i =>
    rw [sequencerTurn_legal hp hd] at h
    exact (sequencerTurn_legal hp' hd).trans (exec_withResponse r h)

theorem runHost_readStatus (s : State) :
    runHost (hostRead 0x000C) s = (.ok (statusWord s.core), s.withResponse (some (.data (statusWord s.core)))) :=
  runHost_hostRead (r := .status) rfl (unspecifiedRead_eq_false s.core nofun nofun nofun)

/-- However often the host polls before the command completes, the last poll answers the status after completion. -/
theorem runHost_pollUntilIdle {v : Word} (ht : sequencerTurn s = .next t) (hp : s.core.phase = .busy v)
    (latency : Nat) :
    runHost (pollUntilIdle latency) s =
      (.ok (statusWord t.core), t.withResponse (some (.data (statusWord t.core)))) := by
  induction latency generalizing s t with
  | zero => rw [pollUntilIdle, runHost_bind_ok (runHost_letSequencerMove ht), runHost_readStatus]
  | succ latency ih =>
    have hbusy : (statusWord s.core).getLsbD 0 = true := (statusWord_bits s.core).1.trans (busy_of_phase_busy hp)
    rw [pollUntilIdle, runHost_bind_ok (runHost_readStatus s), if_pos hbusy]
    have hpoll := ih (sequencerTurn_withResponse hp (some (.data (statusWord s.core))) ht) hp
    exact hpoll

/-- The write of a command word by the host (R60). -/
theorem runHost_writeCmd (hp : s.core.phase = .idle) (word : Word) :
    runHost (hostWrite 0x0010 word) s = (.ok (), { s with core := issue word s.core, response := some .ack }) := by
  rw [runHost_hostWrite (r := .cmd) word s rfl, writeReg, unlessBusy_of_idle (busy_of_phase_idle hp)]

end

/-- Settles O58: each number of polls ends in the same status and the same machine. -/
theorem latencyDoesNotMatter : Obligations.LatencyDoesNotMatter := by
  intro latency word s hp
  obtain ⟨t, ht, -⟩ := everyRunningWordCompletes word { s with core := issue word s.core, response := some .ack } rfl
  rw [coreRun, coreRunAfter, coreRunAfter, runHost_bind_ok (runHost_writeCmd hp word),
    runHost_bind_ok (runHost_writeCmd hp word), runHost_bind_ok (runHost_pollUntilIdle ht rfl latency),
    runHost_bind_ok (runHost_pollUntilIdle ht rfl 0)]

/-! ### Reading registers -/

section
variable {s : State} (hp : s.core.phase = .idle)
include hp

/-- A command that completes without an error, run from an idle CORE: an answer, and its completion (R61). -/
theorem runHost_coreRun_ok {word : Word} {i : Instr} {op : Byte} {c : CoreState} (hd : decode word = some i)
    (hx : exec i { s with core := issue word s.core, response := some .ack } =
      finishOk op c { s with core := issue word s.core, response := some .ack }) :
    ∃ w r, runHost (coreRun word) s = (.ok w, { s with core := complete op .ok c, response := r }) := by
  have ht : sequencerTurn { s with core := issue word s.core, response := some .ack } =
      .next { s with core := complete op .ok c, response := some .ack } :=
    (sequencerTurn_legal rfl hd).trans hx
  have herr : ¬ (statusWord (complete op .ok c)).extractLsb' 8 4 ≠ 0#4 := by
    rw [statusWord_err, complete_err]
    decide
  have hrun := runHost_coreRun hp ht
  rw [if_neg herr] at hrun
  exact ⟨_, _, hrun⟩

/-- Reads of consecutive registers of an idle CORE answer their values. -/
theorem runHost_readWords {f : Nat → Reg} {n off : Nat} (hf : ∀ k < n, regAt (off + 4 * k) = some (f k)) :
    ∃ r, runHost (readWords off n) s =
      (.ok ((List.range n).map fun k => readReg (f k) s.core), { s with response := r }) := by
  induction n generalizing s off f with
  | zero => exact ⟨s.response, rfl⟩
  | succ n ih =>
    obtain ⟨r, hr⟩ := ih (s := { s with response := some (.data (readReg (f 0) s.core)) }) (f := f ∘ Nat.succ) hp
      (off := off + 4) fun k hk => by
        rw [show off + 4 + 4 * k = off + 4 * (k + 1) by omega]
        exact hf (k + 1) (by omega)
    refine ⟨r, ?_⟩
    have hread := runHost_hostRead (off := off) (hf 0 (Nat.succ_pos n)) (unspecifiedRead_of_idle _ hp)
    rw [readWords, runHost_bind_ok hread, runHost_bind_ok hr, runHost_pure, List.range_succ_eq_map, List.map_cons, List.map_map]
    rfl

end

/-! ### A run of MODEXP (R280) -/

theorem wordAt_succ (x k : Nat) : wordAt x (k + 1) = wordAt (x / 2 ^ 32) k := by
  rw [wordAt, wordAt, Nat.div_div_eq_div_mul, ← pow_add, Nat.mul_succ, Nat.add_comm]

/-- The words of a number make it again (R50). -/
theorem natOfWords_wordAt (n x : Nat) : natOfWords ((List.range n).map (wordAt x)) = x % 2 ^ (32 * n) := by
  induction n generalizing x with
  | zero => exact (Nat.mod_one x).symm
  | succ n ih =>
    have htail : ((List.range n).map Nat.succ).map (wordAt x) = (List.range n).map (wordAt (x / 2 ^ 32)) := by
      rw [List.map_map]
      exact List.map_congr_left fun k _ => wordAt_succ x k
    rw [List.range_succ_eq_map, List.map_cons, natOfWords, htail, ih, toNat_wordAt, Nat.mul_succ, Nat.add_comm _ 32,
      pow_add, Nat.mod_mul, Nat.mul_zero, pow_zero, Nat.div_one]

/-- What `ReadBig` answers on an idle CORE: the whole of `R` (R280, R51). -/
theorem runHost_readBig {s : State} (hp : s.core.phase = .idle) (hR : s.core.opR < 2 ^ Config.bigBits) :
    ∃ r, runHost readBig s = (.ok s.core.opR, { s with response := r }) := by
  obtain ⟨r, hr⟩ := runHost_readWords hp (off := Operand.R.base) (f := .operand .R) fun _ => regAt_operand .R
  refine ⟨r, ?_⟩
  rw [readBig, runHost_bind_ok (show runHost (readWords 0x5000 Config.nw) s = _ from hr), runHost_pure]
  exact congrArg (Except.ok · , _) ((natOfWords_wordAt _ _).trans (Nat.mod_eq_of_lt hR))

/-- The CORE with the operands of MODEXP loaded. -/
def CoreState.loadModexp (c : CoreState) (a e n : Nat) : CoreState := { c with opA := a, opE := e, opN := n }

/-- The CORE after MODEXP of the operands loaded (R247). -/
def CoreState.finishModexp (c : CoreState) (a e n : Nat) : CoreState :=
  complete 0x11#8 .ok { issue 0x00000011#32 (c.loadModexp a e n) with opR := a ^ e % n }

/-- Settles O59: the three loads, the command and the reads, in the order of the procedure. -/
theorem hostModExpAnswersThePower : Obligations.HostModExpAnswersThePower := by
  intro a e n s hinv hp ha he hn h0
  obtain ⟨hrange, -⟩ := hinv
  obtain ⟨r1, hA⟩ := runHost_loadBig (X := .A) (by decide) ha hp (hrange .A)
  obtain ⟨r2, hE⟩ := runHost_loadBig (X := .E) (by decide) he
    (s := { s with core := s.core.setOperand .A a, response := r1 }) hp (hrange .E)
  obtain ⟨r3, hN⟩ := runHost_loadBig (X := .N) (by decide) hn
    (s := { s with core := (s.core.setOperand .A a).setOperand .E e, response := r2 }) hp (hrange .N)
  obtain ⟨w, r4, hrun⟩ := runHost_coreRun_ok (i := .modexp) (word := 0x00000011#32)
    (s := { s with core := s.core.loadModexp a e n, response := r3 }) hp (by decide)
    ((exec_modexp _).trans (modCommand_of_ne_zero h0))
  obtain ⟨r5, hread⟩ := runHost_readBig (s := { s with core := s.core.finishModexp a e n, response := r4 }) rfl
    ((Nat.mod_lt _ (Nat.pos_of_ne_zero h0)).trans hn)
  refine ⟨{ s with core := s.core.finishModexp a e n, response := r5 }, ?_, rfl, rfl, rfl, rfl, rfl⟩
  rw [hostModExp, runHost_bind_ok (show runHost (loadBig 0x1000 a) s = _ from hA),
    runHost_bind_ok (show runHost (loadBig 0x3000 e) _ = _ from hE),
    runHost_bind_ok (show runHost (loadBig 0x4000 n) _ = _ from hN)]
  exact (runHost_bind_ok hrun).trans hread

end Sys2Proof.Machine
end

section
/-! The inverse cipher inverts the cipher (R158, R159): each transform of a round has its inverse. -/

namespace Sys2Proof.Machine

/-! ### Multiplication in GF(2^8) (R141) -/

/-- Multiplication by each matrix entry, by repeated `xtime`. -/
theorem gmul_two (b : Byte) : gmul 0x02#8 b = xtime b := by revert b; decide +kernel

theorem gmul_three (b : Byte) : gmul 0x03#8 b = xtime b ^^^ b := by revert b; decide +kernel

theorem gmul_nine (b : Byte) : gmul 0x09#8 b = xtime (xtime (xtime b)) ^^^ b := by revert b; decide +kernel

theorem gmul_eleven (b : Byte) : gmul 0x0B#8 b = xtime (xtime (xtime b)) ^^^ xtime b ^^^ b := by
  revert b; decide +kernel

theorem gmul_thirteen (b : Byte) : gmul 0x0D#8 b = xtime (xtime (xtime b)) ^^^ xtime (xtime b) ^^^ b := by
  revert b; decide +kernel

theorem gmul_fourteen (b : Byte) : gmul 0x0E#8 b = xtime (xtime (xtime b)) ^^^ xtime (xtime b) ^^^ xtime b := by
  revert b; decide +kernel

theorem xor_left_comm (a b c : Byte) : a ^^^ (b ^^^ c) = b ^^^ (a ^^^ c) := by ac_rfl

/-- The loop of `gmul` is linear in its multiplier and its sum together. -/
theorem gmulLoop_xor_right (n : Nat) (a b b' p p' : Byte) :
    gmulLoop n a (b ^^^ b') (p ^^^ p') = gmulLoop n a b p ^^^ gmulLoop n a b' p' := by
  induction n generalizing a b b' p p' with
  | zero => rfl
  | succ n ih =>
    have sum : (if (b ^^^ b').getLsbD 0 then p ^^^ p' ^^^ a else p ^^^ p') =
        (if b.getLsbD 0 then p ^^^ a else p) ^^^ (if b'.getLsbD 0 then p' ^^^ a else p') := by
      rw [BitVec.getLsbD_xor]
      cases b.getLsbD 0 <;> cases b'.getLsbD 0 <;> simp [BitVec.xor_assoc, BitVec.xor_comm, xor_left_comm]
    rw [gmulLoop, sum, BitVec.ushiftRight_xor_distrib, ih]
    rfl

theorem gmul_xor_right (a b b' : Byte) : gmul a (b ^^^ b') = gmul a b ^^^ gmul a b' :=
  gmulLoop_xor_right 8 a b b' 0x00#8 0x00#8

/-! ### `M'` times `M` (R147, R148) -/

/-- What a byte `b` in row `j` of a column gives to `row` times the mixed column: entry `j` of `row` times `M`, times
`b`. -/
def mixEntry (row : Col) (j : Fin 4) (b : Byte) : Byte :=
  gmul row.r0 (gmul ((mixRow 0).get j) b) ^^^ gmul row.r1 (gmul ((mixRow 1).get j) b) ^^^
    gmul row.r2 (gmul ((mixRow 2).get j) b) ^^^ gmul row.r3 (gmul ((mixRow 3).get j) b)

theorem gdot_mixRow (row c : Col) :
    gdot row ⟨gdot (mixRow 0) c, gdot (mixRow 1) c, gdot (mixRow 2) c, gdot (mixRow 3) c⟩ =
      mixEntry row 0 c.r0 ^^^ mixEntry row 1 c.r1 ^^^ mixEntry row 2 c.r2 ^^^ mixEntry row 3 c.r3 := by
  simp only [gdot, mixEntry, gmul_xor_right, Col.get]
  ac_rfl

/-- `M'` times `M` is the identity: the other powers of `x` cancel. -/
theorem mixEntry_invMixRow (r j : Fin 4) (b : Byte) : mixEntry (invMixRow r) j b = if r = j then b else 0x00#8 := by
  fin_cases r <;> fin_cases j <;>
    simp [mixEntry, invMixRow, mixRow, Col.get, gmul_two, gmul_three, gmul_nine, gmul_eleven, gmul_thirteen,
      gmul_fourteen, xtime_xor, BitVec.xor_assoc, BitVec.xor_comm, xor_left_comm]

theorem gdot_invMixRow (r : Fin 4) (c : Col) :
    gdot (invMixRow r) ⟨gdot (mixRow 0) c, gdot (mixRow 1) c, gdot (mixRow 2) c, gdot (mixRow 3) c⟩ = c.get r := by
  simp only [gdot_mixRow, mixEntry_invMixRow]
  fin_cases r <;> simp [Col.get]

/-! ### Each transform has its inverse (R150 to R156) -/

@[simp] theorem invMixColumns_mixColumns (s : AesState) : invMixColumns (mixColumns s) = s := by
  refine AesState.ext_at fun r c => ?_
  calc (invMixColumns (mixColumns s)).at r c
      = gdot (invMixRow r) ((mixColumns s).col c) := at_ofFn _ r c
    _ = gdot (invMixRow r) ⟨gdot (mixRow 0) (s.col c), gdot (mixRow 1) (s.col c), gdot (mixRow 2) (s.col c),
          gdot (mixRow 3) (s.col c)⟩ := by fin_cases c <;> rfl
    _ = s.at r c := gdot_invMixRow r (s.col c)

theorem isbox_sbox : ∀ x : Byte, isbox (sbox x) = x := by decide +kernel

@[simp] theorem invSubBytes_subBytes (s : AesState) : invSubBytes (subBytes s) = s := by
  refine AesState.ext_at fun r c => ?_
  rw [invSubBytes, at_ofFn, subBytes, at_ofFn, isbox_sbox]

@[simp] theorem invShiftRows_shiftRows (s : AesState) : invShiftRows (shiftRows s) = s := by
  refine AesState.ext_at fun r c => ?_
  rw [invShiftRows, at_ofFn, shiftRows, at_ofFn, sub_add_cancel]

@[simp] theorem addRoundKey_addRoundKey (s k : AesState) : addRoundKey (addRoundKey s k) k = s := by
  refine AesState.ext_at fun r c => ?_
  rw [addRoundKey, at_ofFn, addRoundKey, at_ofFn, BitVec.xor_assoc, BitVec.xor_self, BitVec.xor_zero]

/-! ### The rounds (R158, R159) -/

theorem invCipherRound_cipherRound (s k : AesState) : invCipherRound (cipherRound s k) k = s := by
  simp [invCipherRound, cipherRound]

/-- Steps that undo steps, in the opposite order, undo the whole. -/
theorem foldl_reverse_foldl {α β : Type} {f g : α → β → α} (h : ∀ a b, g (f a b) b = a) (l : List β) (a : α) :
    l.reverse.foldl g (l.foldl f a) = a := by
  induction l generalizing a with
  | nil => rfl
  | cons b l ih => rw [List.foldl_cons, List.reverse_cons, List.foldl_append, ih, List.foldl_cons, List.foldl_nil, h]

/-- The inverse cipher inverts the cipher, under any round keys (R160 (b)). -/
theorem invCipher_cipher (x : AesState) (rk : Vector AesState 11) : invCipher (cipher x rk) rk = x := by
  have rounds (y : AesState) : middleRounds.reverse.foldl (fun s r => invCipherRound s rk[r])
      (middleRounds.foldl (fun s r => cipherRound s rk[r]) y) = y :=
    foldl_reverse_foldl (fun s r => invCipherRound_cipherRound s rk[r]) middleRounds y
  simp only [invCipher, cipher, addRoundKey_addRoundKey, invShiftRows_shiftRows, invSubBytes_subBytes, rounds]

end Sys2Proof.Machine
end

section
/-! The host's AES procedures (R281 to R285): blocks through the CORE, and decryption after encryption. -/

namespace Sys2Proof.Machine

/-! ### Blocks of a byte string -/

/-- A function of the blocks of a byte string, the results joined. -/
def onBlocks (g : List Byte → List Byte) (n : Nat) (m : List Byte) : List Byte := (blocks n m).flatMap g

theorem onBlocks_succ (g : List Byte → List Byte) (n : Nat) (m : List Byte) :
    onBlocks g (n + 1) m = g (m.take 16) ++ onBlocks g n (m.drop 16) := rfl

section
variable {g h : List Byte → List Byte} (hg : ∀ b, (g b).length = 16)
include hg

theorem length_onBlocks (n : Nat) (m : List Byte) : (onBlocks g n m).length = 16 * n := by
  induction n generalizing m with
  | zero => rfl
  | succ n ih => rw [onBlocks_succ, List.length_append, hg, ih, Nat.mul_succ, Nat.add_comm]

/-- What undoes `g` on a block undoes it on whole blocks. -/
theorem onBlocks_onBlocks (hinv : ∀ b, b.length = 16 → h (g b) = b) {n : Nat} {m : List Byte}
    (hm : m.length = 16 * n) : onBlocks h n (onBlocks g n m) = m := by
  induction n generalizing m with
  | zero => exact (List.length_eq_zero_iff.mp hm).symm
  | succ n ih =>
    have htake : (m.take 16).length = 16 := by rw [List.length_take]; omega
    rw [onBlocks_succ, onBlocks_succ, List.take_left' (hg _), List.drop_left' (hg _), hinv _ htake,
      ih (by rw [List.length_drop]; omega), List.take_append_drop]

end

/-! ### Blocks and banks of four words (R280, R92) -/

/-- The four words of a block (R280). -/
def blockQuad (b : List Byte) : Quad := ⟨blockWord b 0, blockWord b 1, blockWord b 2, blockWord b 3⟩

/-- The 16 bytes of a bank (R280). -/
def bytesOfQuad (q : Quad) : List Byte := [q.w0, q.w1, q.w2, q.w3].flatMap bytesOfWord

theorem length_bytesOfQuad (q : Quad) : (bytesOfQuad q).length = 16 := rfl

@[simp] theorem blockQuad_bytesOfQuad (q : Quad) : blockQuad (bytesOfQuad q) = q := by
  simp [blockQuad, bytesOfQuad, blockWord, bytesOfWord]

theorem bytesOfQuad_blockQuad {b : List Byte} (h : b.length = 16) : bytesOfQuad (blockQuad b) = b := by
  have hbytes : bytesOfQuad (blockQuad b) = (List.range 16).map fun i => b.getD i 0x00#8 := by
    simp [blockQuad, bytesOfQuad, blockWord, bytesOfWord, List.range_succ]
  rw [hbytes]
  refine List.ext_getElem (by simp [h]) fun i hi hb => ?_
  simp [hb]

/-- One block under the round keys `rk`, as the host sees it. -/
def cryptBlock (f : AesState → Vector AesState 11 → AesState) (rk : Vector AesState 11) (b : List Byte) : List Byte :=
  bytesOfQuad (quadOfState (f (stateOfQuad (blockQuad b)) rk))

theorem length_cryptBlock (f : AesState → Vector AesState 11 → AesState) (rk : Vector AesState 11) (b : List Byte) :
    (cryptBlock f rk b).length = 16 := rfl

theorem cryptBlock_invCipher_cipher (rk : Vector AesState 11) {b : List Byte} (h : b.length = 16) :
    cryptBlock invCipher rk (cryptBlock cipher rk b) = b := by
  rw [cryptBlock, cryptBlock, blockQuad_bytesOfQuad, stateOfQuad_quadOfState, invCipher_cipher, quadOfState_stateOfQuad,
    bytesOfQuad_blockQuad h]

/-! ### Loading and reading a bank (R280) -/

/-- Four writes replace a bank whose registers are `r`; `core q` is the CORE with the bank `q`. -/
theorem runHost_loadBlock {s : State} {base : Nat} {r : Fin 4 → Reg} {core : Quad → CoreState} {q : Quad}
    (hr : ∀ i : Fin 4, regAt (base + 4 * i.val) = some (r i))
    (hfirst : ∀ v, writeReg (r 0) v s.core = core (q.set 0 v))
    (hnext : ∀ i q v, writeReg (r i) v (core q) = core (q.set i v)) (b : List Byte) :
    runHost (loadBlock base b) s = (.ok (), { s with core := core (blockQuad b), response := some .ack }) := by
  rw [loadBlock, writeWords, runHost_bind_ok (runHost_hostWrite (off := base) _ _ (hr 0)), hfirst, writeWords,
    runHost_bind_ok (runHost_hostWrite (off := base + 4) _ _ (hr 1)), hnext, writeWords,
    runHost_bind_ok (runHost_hostWrite (off := base + 4 + 4) _ _ (hr 2)), hnext, writeWords,
    runHost_bind_ok (runHost_hostWrite (off := base + 4 + 4 + 4) _ _ (hr 3)), hnext]
  rfl

section
variable {c : CoreState} (hb : c.busy = false) (i : Fin 4) (v : Word)
include hb

theorem writeReg_key : writeReg (.key i) v c = { c with key := c.key.set i v, keyValid := false } := by
  rw [writeReg, unlessBusy_of_idle hb]

theorem writeReg_din : writeReg (.din i) v c = { c with din := c.din.set i v } := by
  rw [writeReg, unlessBusy_of_idle hb]

end

section
variable {s : State} (hp : s.core.phase = .idle) (b : List Byte)
include hp

/-- The key load leaves `KEYVALID` 0 (R49, R183). -/
theorem runHost_loadKey :
    runHost (loadBlock 0x0020 b) s =
      (.ok (), { s with core := { s.core with key := blockQuad b, keyValid := false }, response := some .ack }) := by
  have hb := busy_of_phase_idle hp
  exact runHost_loadBlock (s := s) (r := .key) (core := fun q => { s.core with key := q, keyValid := false })
    (q := s.core.key) (fun i => regAt_offset (r := .key i) rfl) (writeReg_key hb 0)
    (fun i q => writeReg_key (c := { s.core with key := q, keyValid := false }) hb i) b

theorem runHost_loadDin :
    runHost (loadBlock 0x0030 b) s =
      (.ok (), { s with core := { s.core with din := blockQuad b }, response := some .ack }) := by
  have hb := busy_of_phase_idle hp
  exact runHost_loadBlock (s := s) (r := .din) (core := fun q => { s.core with din := q })
    (q := s.core.din) (fun i => regAt_offset (r := .din i) rfl) (writeReg_din hb 0)
    (fun i q => writeReg_din (c := { s.core with din := q }) hb i) b

omit b in
theorem runHost_readOut : ∃ r, runHost readOut s = (.ok (bytesOfQuad s.core.dout), { s with response := r }) := by
  obtain ⟨r, hr⟩ := runHost_readWords hp (f := fun k => .dout (Fin.ofNat 4 k)) (n := 4) (off := 0x0040) (by decide)
  exact ⟨r, by rw [readOut, runHost_bind_ok hr, runHost_pure]; rfl⟩

end

/-! ### Blocks through the CORE (R283, R285) -/

/-- An idle CORE whose round-key RAM holds a valid schedule. -/
def Expanded (rk : Vector AesState 11) (s : State) : Prop :=
  s.core.phase = .idle ∧ s.core.keyValid = true ∧ s.core.rk = rk

/-- A load of `DIN` leaves an expanded CORE so (R52). -/
theorem Expanded.load_din {rk : Vector AesState 11} {s : State} (hs : Expanded rk s) (q : Quad) (r : Option Response) :
    Expanded rk { s with core := { s.core with din := q }, response := r } := hs

/-- AES_KEYEXP on an idle CORE leaves it expanded (R181). -/
theorem runHost_coreRun_keyexp {s : State} (hp : s.core.phase = .idle) :
    ∃ w t, runHost (coreRun 0x00000001#32) s = (.ok w, t) ∧ Expanded (keyExpansion (stateOfQuad s.core.key)) t := by
  obtain ⟨w, r, hrun⟩ := runHost_coreRun_ok hp (word := 0x00000001#32) (i := .aesKeyexp) (by decide) rfl
  exact ⟨w, _, hrun, rfl, rfl, rfl⟩

/-- A word that runs a block command whose function of a block is `f` (R185, R190). -/
def RunsBlockCommand (word : Word) (f : AesState → Vector AesState 11 → AesState) : Prop :=
  ∃ i op, decode word = some i ∧ word ≠ 0x00000001#32 ∧ ∀ s, exec i s = blockCommand op f s

theorem runsBlockCommand_aesEnc : RunsBlockCommand 0x00000002#32 cipher :=
  ⟨.aesEnc, 0x02#8, by decide, by decide, exec_aesEnc⟩

theorem runsBlockCommand_aesDec : RunsBlockCommand 0x00000003#32 invCipher :=
  ⟨.aesDec, 0x03#8, by decide, by decide, exec_aesDec⟩

section
variable {word : Word} {f : AesState → Vector AesState 11 → AesState} (hword : RunsBlockCommand word f)
include hword

/-- A block command on an expanded CORE leaves it so, with `DOUT` the block made of `DIN` (R185, R190). -/
theorem runHost_coreRun_block {rk : Vector AesState 11} {s : State} (hs : Expanded rk s) :
    ∃ w t, runHost (coreRun word) s = (.ok w, t) ∧ Expanded rk t ∧
      t.core.dout = quadOfState (f (stateOfQuad s.core.din) rk) := by
  obtain ⟨hp, hk, rfl⟩ := hs
  obtain ⟨i, op, hd, hne, hx⟩ := hword
  have hkey : (issue word s.core).keyValid = true := by rw [issue_keyValid, if_neg hne, hk]
  obtain ⟨w, r, hrun⟩ := runHost_coreRun_ok hp hd ((hx _).trans (blockCommand_of_keyValid hkey))
  exact ⟨w, _, hrun, ⟨rfl, hkey, rfl⟩, rfl⟩

/-- One block through an expanded CORE (R283, R285). -/
theorem runHost_runBlock {rk : Vector AesState 11} {s : State} (hs : Expanded rk s) (b : List Byte) :
    ∃ t, runHost (runBlock word b) s = (.ok (cryptBlock f rk b), t) ∧ Expanded rk t := by
  have hload := runHost_loadDin hs.1 b
  obtain ⟨w, t, hrun, ht, hdout⟩ := runHost_coreRun_block hword (hs.load_din (blockQuad b) (some .ack))
  obtain ⟨r, hread⟩ := runHost_readOut ht.1
  refine ⟨{ t with response := r }, ?_, ht⟩
  rw [runBlock, runHost_bind_ok hload, runHost_bind_ok hrun, hread, hdout]
  rfl

theorem runHost_runBlocks {rk : Vector AesState 11} {s : State} (hs : Expanded rk s) (bs : List (List Byte)) :
    ∃ t, runHost (runBlocks word bs) s = (.ok (bs.flatMap (cryptBlock f rk)), t) ∧ Expanded rk t := by
  induction bs generalizing s with
  | nil => exact ⟨s, rfl, hs⟩
  | cons b bs ih =>
    obtain ⟨t, hb, ht⟩ := runHost_runBlock hword hs b
    obtain ⟨u, hbs, hu⟩ := ih ht
    refine ⟨u, ?_, hu⟩
    rw [runBlocks, runHost_bind_ok hb, runHost_bind_ok hbs]
    rfl

/-- The key load, its expansion and the blocks (R283, R285). -/
theorem runHost_withKey {s : State} (hp : s.core.phase = .idle) (k m : List Byte) :
    ∃ t, runHost (withKey k word m) s =
      (.ok (onBlocks (cryptBlock f (keyExpansion (stateOfQuad (blockQuad k)))) (m.length / 16) m), t) ∧
        t.core.phase = .idle := by
  obtain ⟨w, t, hrun, ht⟩ := runHost_coreRun_keyexp
    (s := { s with core := { s.core with key := blockQuad k, keyValid := false }, response := some .ack }) hp
  obtain ⟨u, hblocks, hidle, -⟩ := runHost_runBlocks hword ht (blocks (m.length / 16) m)
  refine ⟨u, ?_, hidle⟩
  rw [withKey, runHost_bind_ok (runHost_loadKey hp k), runHost_bind_ok hrun, hblocks]
  rfl

end

/-! ### Encryption and decryption -/

/-- The round keys of a key as the host gives it. -/
def roundKeys (key : AesKey) : Vector AesState 11 := keyExpansion (stateOfQuad (blockQuad (rawKeyBytes key)))

theorem aesKeyBytes_of_length {key : AesKey} (h : (rawKeyBytes key).length = 16) :
    aesKeyBytes key = .ok (rawKeyBytes key) := if_pos h

theorem decryptChecks_bytesToHex {key : AesKey} (hk : (rawKeyBytes key).length = 16) {c : List Byte} {n : Nat}
    (hc : c.length = 16 * (n + 1)) : decryptChecks (bytesToHex c) key = .ok (rawKeyBytes key, c) := by
  rw [decryptChecks, aesKeyBytes_of_length hk, hexRoundTrip.1]
  exact if_neg (by omega)

theorem unpadText_pad_utf8Encode (policy : Utf8Policy) (p : Text) :
    unpadText policy (pad (utf8Encode p)) = .ok p := by
  rw [unpadText, (unpadInvertsPad _).1]
  exact utf8RoundTrip policy p

/-- Encryption on an idle CORE: the hex of the encrypted blocks (R283). -/
theorem runHost_encryptAes {key : AesKey} (hk : (rawKeyBytes key).length = 16) {s : State} (hp : s.core.phase = .idle)
    (p : Text) :
    ∃ t, runHost (encryptAes p key) s =
      (.ok (bytesToHex (onBlocks (cryptBlock cipher (roundKeys key)) ((utf8Encode p).length / 16 + 1)
        (pad (utf8Encode p)))), t) ∧ t.core.phase = .idle := by
  obtain ⟨t, hc, ht⟩ := runHost_withKey runsBlockCommand_aesEnc hp (rawKeyBytes key) (pad (utf8Encode p))
  rw [(unpadInvertsPad (utf8Encode p)).2, Nat.mul_div_cancel_left _ (by decide)] at hc
  refine ⟨t, ?_, ht⟩
  rw [encryptAes, aesKeyBytes_of_length hk, runHost_bind_ok (runHost_hostCheck _ s), runHost_bind_ok hc]
  rfl

/-- Decryption of the hex of whole blocks, on an idle CORE (R285). -/
theorem runHost_decryptAes {policy : Utf8Policy} {key : AesKey} (hk : (rawKeyBytes key).length = 16) {c : List Byte}
    {n : Nat} (hc : c.length = 16 * (n + 1)) {s : State} (hp : s.core.phase = .idle) :
    (runHost (decryptAes policy (bytesToHex c) key) s).1 =
      unpadText policy (onBlocks (cryptBlock invCipher (roundKeys key)) (n + 1) c) := by
  obtain ⟨t, hm, -⟩ := runHost_withKey runsBlockCommand_aesDec hp (rawKeyBytes key) c
  rw [hc, Nat.mul_div_cancel_left _ (by decide)] at hm
  rw [decryptAes, decryptChecks_bytesToHex hk hc, runHost_bind_ok (runHost_hostCheck _ s), runHost_bind_ok hm,
    runHost_hostCheck]
  rfl

/-- Settles O60: the blocks that decryption runs are those that encryption made, and each comes back. -/
theorem aesHostRoundTrip : Obligations.AesHostRoundTrip := by
  intro policy p key s hp hk
  have hm := (unpadInvertsPad (utf8Encode p)).2
  obtain ⟨t, hc, ht⟩ := runHost_encryptAes hk hp p
  rw [runHost_bind_ok hc, runHost_decryptAes hk (length_onBlocks (length_cryptBlock _ _) _ _) ht,
    onBlocks_onBlocks (length_cryptBlock _ _) (fun b => cryptBlock_invCipher_cipher _) hm, unpadText_pad_utf8Encode]

end Sys2Proof.Machine
end

section
/-! Exceptions: the causes of the command errors and their precision, the interrupt line, and that the CORE never stops
(`60_exceptions.md`). -/

namespace Sys2Proof.Machine

/-! ### The cause of each command error (R331) -/

section
variable {op : Byte} {s t : State}

theorem err_of_finishOk {c : CoreState} (h : finishOk op c s = .next t) : t.core.err = .ok := by
  rw [finishOk_eq_next.mp h, complete_err]

theorem err_of_raiseCmdError {e : ErrCode} (h : raiseCmdError op e s = .next t) : t.core.err = e := by
  rw [raiseCmdError_eq_next.mp h, complete_err]

theorem err_of_blockCommand {f : AesState → Vector AesState 11 → AesState} (h : blockCommand op f s = .next t) :
    t.core.err = if s.core.keyValid = false then .noKey else .ok := by
  split
  · next hk => exact err_of_raiseCmdError ((blockCommand_of_keyInvalid hk).symm.trans h)
  · next hk => exact err_of_finishOk ((blockCommand_of_keyValid (Bool.eq_true_of_not_eq_false hk)).symm.trans h)

theorem err_of_modCommand {result : Nat} (h : modCommand op result s = .next t) :
    t.core.err = if s.core.opN = 0 then .modZero else .ok := by
  split
  · next hN => exact err_of_raiseCmdError ((modCommand_of_zero hN).symm.trans h)
  · next hN => exact err_of_finishOk ((modCommand_of_ne_zero hN).symm.trans h)

/-- MR_ROUND refuses a witness outside `2..N-2` only where it needs one, which is not below `N = 4` (R215). -/
theorem err_of_mrRound (h : exec .mrRound s = .next t) :
    t.core.err = if 4 ≤ s.core.opN ∧ (s.core.opA < 2 ∨ s.core.opN - 2 < s.core.opA) then .witness else .ok := by
  split
  · next hw =>
    obtain ⟨hN, hA⟩ := hw
    exact err_of_raiseCmdError ((exec_mrRound_refused hN hA).symm.trans h)
  · next hw =>
    by_cases hN : s.core.opN < 4
    · exact err_of_finishOk ((exec_mrRound_small hN).symm.trans h)
    · exact err_of_finishOk ((exec_mrRound_round (by omega) (by omega) (by omega)).symm.trans h)

end

/-- Settles O23, by the one check that each command makes. -/
theorem errorCausesAndCodes : Obligations.ErrorCausesAndCodes := by
  refine ⟨⟨rfl, rfl, rfl, rfl, rfl⟩, fun i s t h => ⟨?_, ?_⟩, fun v s t hp hd h => ?_⟩
  · obtain ⟨-, -, hop, -⟩ := exec_completion h
    exact hop
  · cases i with
    | nop => exact err_of_finishOk h
    | aesKeyexp => exact err_of_finishOk h
    | aesEnc => exact err_of_blockCommand h
    | aesDec => exact err_of_blockCommand h
    | modmul => exact err_of_modCommand h
    | modexp => exact err_of_modCommand h
    | mrRound => exact err_of_mrRound h
    | mrTest => exact err_of_finishOk h
  · rw [raiseCmdError_eq_next.mp ((sequencerTurn_illegal hp hd).symm.trans h)]
    exact ⟨rfl, rfl⟩

/-! ### Command errors are precise and not sticky (R333) -/

theorem raiseCmdError_of_err (op : Byte) (e e' : ErrCode) (s : State) :
    raiseCmdError op e { s with core := { s.core with err := e' } } = raiseCmdError op e s := rfl

/-- No command reads `ERR`, and each completion overwrites it. -/
theorem exec_of_err (i : Instr) (e : ErrCode) (s : State) :
    exec i { s with core := { s.core with err := e } } = exec i s := by
  cases i <;> rfl

theorem sequencerTurn_of_err {v : Word} {s : State} (hp : s.core.phase = .busy v) (e : ErrCode) :
    sequencerTurn { s with core := { s.core with err := e } } = sequencerTurn s := by
  cases hd : decode v with
  | none =>
    calc sequencerTurn { s with core := { s.core with err := e } }
        = raiseCmdError (opField v) .illegal { s with core := { s.core with err := e } } := sequencerTurn_illegal hp hd
      _ = raiseCmdError (opField v) .illegal s := raiseCmdError_of_err _ _ _ _
      _ = sequencerTurn s := (sequencerTurn_illegal hp hd).symm
  | some i =>
    calc sequencerTurn { s with core := { s.core with err := e } }
        = exec i { s with core := { s.core with err := e } } := sequencerTurn_legal hp hd
      _ = exec i s := exec_of_err i e s
      _ = sequencerTurn s := (sequencerTurn_legal hp hd).symm

/-- A command that fails writes its completion's four fields into the state at issue. -/
theorem exec_of_error {i : Instr} {s t : State} (h : exec i s = .next t) (he : t.core.err ≠ .ok) :
    t = { s with core := complete (opcode i) t.core.err s.core } := by
  obtain ⟨e, c, d, hx, hprecise, -⟩ := exec_next i s
  cases hx.symm.trans h
  obtain ⟨rfl, rfl⟩ := hprecise he
  rfl

/-- Settles O24, by whether the running word decodes to a command. -/
theorem commandErrorIsPrecise : Obligations.CommandErrorIsPrecise := by
  refine fun v s t hp h => ⟨fun he => ?_, fun e => (sequencerTurn_of_err hp e).trans h⟩
  cases hd : decode v with
  | none =>
    rw [raiseCmdError_eq_next.mp ((sequencerTurn_illegal hp hd).symm.trans h)]
    rfl
  | some i =>
    have hop : opcode i = v.extractLsb' 0 8 := by
      rw [decode_eq_some_iff.mp hd]
      exact (opField_encode i).symm
    rw [← hop]
    exact exec_of_error ((sequencerTurn_legal hp hd).symm.trans h) he

/-! ### The interrupt line (R340) -/

theorem irq_eq_true_iff {c : CoreState} : irq c = true ↔ c.ie = true ∧ c.done = true := Bool.and_eq_true_iff

theorem irq_of_done_false {c : CoreState} (h : c.done = false) : irq c = false := by
  rw [irq, h, Bool.and_false]

theorem irq_of_done {c : CoreState} (h : c.done = true) : irq c = c.ie := by
  rw [irq, h, Bool.and_true]

/-- The sequencer leaves `IE` to the host (R38). -/
theorem sequencerTurn_ie {s t : State} (h : sequencerTurn s = .next t) : t.core.ie = s.core.ie := by
  rcases sequencerTurn_cases s with ⟨-, hx⟩ | ⟨v, -, -, hx⟩ | ⟨v, i, -, -, hx⟩
  · cases hx.symm.trans h
    rfl
  · cases hx.symm.trans h
    rfl
  · obtain ⟨-, -, -, -, -, -, hie, -⟩ := commandFrame i s t (hx.symm.trans h)
    exact hie

theorem sequencerTurn_done {v : Word} {s t : State} (hp : s.core.phase = .busy v) (h : sequencerTurn s = .next t) :
    t.core.done = true := by
  obtain ⟨u, hu, -, -, hdone, -⟩ := everyRunningWordCompletes v s hp
  cases hu.symm.trans h
  exact hdone

/-- Settles O18, by what each event leaves in `IE` and `DONE`. -/
theorem interruptLevel : Obligations.InterruptLevel := by
  refine ⟨fun c => irq_eq_true_iff, fun v s t hp h => ?_, fun v s hp => ?_, fun v s hv => ?_, fun v s hv => ?_, rfl⟩
  · rw [irq_of_done (sequencerTurn_done hp h), sequencerTurn_ie h]
  · rw [writeAt_cmd hp]
    exact irq_of_done_false (issue_done v s.core)
  · refine irq_of_done_false ?_
    obtain ⟨-, -, -, hwrite⟩ := statusRegister
    rw [hwrite]
    simp only [hv, Bool.not_true, Bool.and_false]
  · obtain ⟨hwrite, -⟩ := ctrlWrite
    rw [(hwrite v s).2 hv]
    exact ⟨rfl, rfl⟩

/-! ### The CORE never stops (R330) -/

/-- The sequencer's turn always has a next state: an idle CORE stays, and a running word completes. -/
theorem exists_sequencerTurn_eq_next (s : State) : ∃ t, sequencerTurn s = .next t := by
  rcases sequencerTurn_cases s with ⟨-, hx⟩ | ⟨v, -, -, hx⟩ | ⟨v, i, -, -, hx⟩
  · exact ⟨_, hx⟩
  · exact ⟨_, hx⟩
  · obtain ⟨e, c, d, hi, -, -⟩ := exec_next i s
    exact ⟨_, hx.trans hi⟩

/-- Settles O49, by the event that the step takes. -/
theorem theCoreNeverStops : Obligations.TheCoreNeverStops := by
  intro s hin
  rcases step_cases s with ⟨-, hx⟩ | ⟨es, -, hx⟩ | ⟨es, -, hx⟩ | ⟨a, es, hs, hx⟩
  · rw [hx]
    exact exists_sequencerTurn_eq_next s
  · rw [hx]
    exact exists_sequencerTurn_eq_next _
  · exact ⟨_, hx⟩
  · obtain ⟨off, hoff⟩ := hin (.host a) (by rw [hs]; rfl)
    exact ⟨_, hx.trans (hostAccess_of_windowOffset hoff _)⟩

end Sys2Proof.Machine
end

section
/-! Resets (`70_reset_and_hazards.md`): a hardware reset and a soft reset, each as one step of the machine. -/

namespace Sys2Proof.Machine

/-! ### The event that a step takes (R95) -/

theorem step_of_events_hardwareReset {s : State} {es : List Event} (h : s.events = .hardwareReset :: es) :
    step s = .next (hardwareReset { s with events := es }) := by
  rw [step, nextEvent, h]
  rfl

theorem step_of_events_host {s : State} {a : Access} {es : List Event} (h : s.events = .host a :: es) :
    step s = hostAccess a { s with events := es } := by
  rw [step, nextEvent, h]
  rfl

theorem step_of_events_write {s : State} {off width : Nat} {v : Word} {es : List Event}
    (hoff : off < Config.windowBytes) (h : s.events = .host (.write (Config.coreBase + off) width v) :: es) :
    step s = .next (writeAt off width v { s with events := es }) := by
  rw [step_of_events_host h]
  exact hostAccess_of_windowOffset (a := .write _ width v) (windowOffset_base_add hoff) _

/-! ### Both resets (R370) -/

/-- Settles O20, by the event that the step takes: the hardware reset, or the host's write to `CTRL` (R39). -/
theorem bothResetsGiveResetState : Obligations.BothResetsGiveResetState := by
  refine ⟨fun s es hs => step_of_events_hardwareReset hs, fun s es v hv hs => ?_⟩
  obtain ⟨hwrite, -⟩ := ctrlWrite
  rw [step_of_events_write (by decide) hs, (hwrite v _).1 hv]
  rfl

end Sys2Proof.Machine
end

section
/-! The Miller-Rabin round and test against primality (R214, R221): a prime passes every round, a divisor of a composite
fails one, and a composite can still pass them all. -/

namespace Sys2Proof.Machine

/-! ### A prime passes every round (R214) -/

/-- In a field a square root of 1 is 1 or -1: of the squares that lead to 1, either the first is 1 or one is -1. -/
theorem eq_one_or_pow_eq_neg_one {F : Type} [Field F] {x : F} {s : Nat} (h : x ^ 2 ^ s = 1) :
    x = 1 ∨ ∃ j < s, x ^ 2 ^ j = -1 := by
  induction s with
  | zero => exact .inl (by rwa [pow_zero, pow_one] at h)
  | succ s ih =>
    rw [pow_succ, pow_mul, sq_eq_one_iff] at h
    rcases h with hone | hneg
    · exact (ih hone).imp_right fun ⟨j, hj, hx⟩ => ⟨j, Nat.lt_succ_of_lt hj, hx⟩
    · exact .inr ⟨s, s.lt_succ_self, hneg⟩

theorem mod_eq_one_iff {m n : Nat} (hn : 2 ≤ n) : m % n = 1 ↔ (m : ZMod n) = 1 := by
  have h := ZMod.natCast_eq_natCast_iff' m 1 n
  rw [Nat.mod_eq_of_lt hn, Nat.cast_one] at h
  exact h.symm

theorem mod_eq_pred_iff {m n : Nat} (hn : 1 ≤ n) : m % n = n - 1 ↔ (m : ZMod n) = -1 := by
  have hpred : ((n - 1 : Nat) : ZMod n) = -1 := by simp [Nat.cast_sub hn]
  rw [← hpred, ZMod.natCast_eq_natCast_iff', Nat.mod_eq_of_lt (Nat.sub_one_lt_of_le hn le_rfl)]

/-- A prime passes the round with every witness it does not divide: the squares of `a^d` lead to `a^(n-1)`, which is 1
by Fermat's little theorem. -/
theorem mrRound_of_prime {n a : Nat} (hp : n.Prime) (ha : ¬ n ∣ a) : mrRound n a = true := by
  have : Fact n.Prime := ⟨hp⟩
  have hfermat : ((a : ZMod n) ^ (sd n).2) ^ 2 ^ (sd n).1 = 1 := by
    rw [← pow_mul, mul_comm, ← (sd_spec hp.two_le).1]
    exact ZMod.pow_card_sub_one_eq_one fun h => ha ((ZMod.natCast_eq_zero_iff a n).mp h)
  rw [mrRound_eq_true]
  simp only [mod_eq_one_iff hp.two_le, mod_eq_pred_iff hp.one_le, Nat.cast_pow, pow_mul]
  exact (eq_one_or_pow_eq_neg_one hfermat).imp_right fun ⟨j, hj, hx⟩ => ⟨j, by omega, hx⟩

/-- Settles O36: a witness in `2..n-2` is no multiple of `n`. -/
theorem primePassesEveryRound : Obligations.PrimePassesEveryRound :=
  fun _ _ hp _ _ _ => mrRound_of_prime hp (Nat.not_dvd_of_pos_of_lt (by omega) (by omega))

/-! ### A divisor of `n` fails the round on `n` -/

theorem not_dvd_one {a : Nat} (ha : 2 ≤ a) : ¬ a ∣ 1 := Nat.not_dvd_of_pos_of_lt Nat.one_pos ha

theorem not_dvd_pred_of_dvd {n a : Nat} (hn : 1 ≤ n) (ha : 2 ≤ a) (hdvd : a ∣ n) : ¬ a ∣ n - 1 :=
  fun h => not_dvd_one ha ((Nat.dvd_sub_iff_right hn hdvd).mp h)

/-- A power of a divisor `a` of `n` is a multiple of `a` modulo `n`, which neither 1 nor `n - 1` is. -/
theorem mrRound_of_dvd {n a : Nat} (hn : 2 ≤ n) (ha : 2 ≤ a) (hdvd : a ∣ n) : mrRound n a = false := by
  obtain ⟨-, hodd⟩ := sd_spec hn
  have hexp : (sd n).2 ≠ 0 := by omega
  have hpow {e : Nat} (he : e ≠ 0) : a ∣ a ^ e % n := (Nat.dvd_mod_iff hdvd).mpr (dvd_pow_self a he)
  rw [Bool.eq_false_iff, Ne, mrRound_eq_true]
  rintro (h | ⟨j, -, h⟩)
  · exact not_dvd_one ha (h ▸ hpow hexp)
  · exact not_dvd_pred_of_dvd (by omega) ha hdvd (h ▸ hpow (Nat.mul_ne_zero hexp (by positivity)))

/-! ### The verdict of MR_TEST (R221) -/

/-- Every number of `lo..hi` can be drawn (R220). -/
theorem drawIn_sub {lo hi a : Nat} (hlo : lo ≤ a) (hhi : a ≤ hi) : drawIn lo hi (a - lo) = a := by
  rw [drawIn, Nat.mod_eq_of_lt (by omega), Nat.add_sub_cancel' hlo]

theorem mrRounds_fst_eq_true_iff {n k : Nat} {ω : Nat → Nat} :
    (mrRounds n k ω).1 = true ↔ ∀ i < k, mrRound n (drawIn 2 (n - 2) (ω i)) = true := by
  induction k generalizing ω with
  | zero => simp [mrRounds]
  | succ k ih =>
    rw [Nat.forall_lt_succ_left]
    cases h : mrRound n (drawIn 2 (n - 2) (ω 0)) with
    | true => simp [mrRounds_of_pass h, ih]
    | false => simp [mrRounds_of_fail h]

theorem mrTest_fst_eq_true_iff {n : Nat} (hn : 4 ≤ n) (ω : Nat → Nat) :
    (mrTest n ω).1 = true ↔ ∀ k < 128, mrRound n (drawIn 2 (n - 2) (ω k)) = true := by
  rw [mrTest_rounds hn, mrRounds_fst_eq_true_iff]

theorem mrTest_of_prime {n : Nat} (hp : n.Prime) (ω : Nat → Nat) : (mrTest n ω).1 = true := by
  have h2 := hp.two_le
  by_cases hn : n < 4
  · rw [mrTest_small hn]
    exact decide_eq_true (by omega)
  · refine (mrTest_fst_eq_true_iff (by omega) ω).mpr fun k _ => mrRound_of_prime hp ?_
    have hlo := le_drawIn 2 (n - 2) (ω k)
    have hhi : drawIn 2 (n - 2) (ω k) ≤ n - 2 := drawIn_le (by omega) _
    exact Nat.not_dvd_of_pos_of_lt (by omega) (by omega)

/-- Drawing a proper divisor shows a composite to be one. -/
theorem exists_mrTest_eq_false {n : Nat} (hp : ¬ n.Prime) (hn : 4 ≤ n) : ∃ ω, (mrTest n ω).1 = false := by
  obtain ⟨a, hdvd, ha, hlt⟩ := (Nat.not_prime_iff_exists_dvd_lt (by omega)).mp hp
  have hle : a ≤ n - 2 := by
    by_contra hgt
    obtain rfl : a = n - 1 := by omega
    exact not_dvd_pred_of_dvd (by omega) ha hdvd dvd_rfl
  refine ⟨fun _ => a - 2, Bool.eq_false_iff.mpr fun h => ?_⟩
  have hpass := (mrTest_fst_eq_true_iff hn _).mp h 0 (by decide)
  rw [drawIn_sub ha hle, mrRound_of_dvd (by omega) ha hdvd] at hpass
  cases hpass

/-- 4 is a strong liar for 341 = 11 * 31 (R221). -/
theorem mrRound_341_4 : mrRound 341 4 = true := by decide

/-- Settles O37: of a composite, the divisors are the witnesses that fail; of 341, 4 is one that passes. -/
theorem mrTestVerdictLaws : Obligations.MrTestVerdictLaws := by
  have hdraw : drawIn 2 339 2 = 4 := drawIn_sub (a := 4) (by decide) (by decide)
  refine ⟨fun n ω hp => mrTest_of_prime hp ω,
    fun n hp hn => ⟨exists_mrTest_eq_false hp hn, mrTest_fst_eq_true_iff hn⟩, fun _ => 2, fun _ => hdraw, ?_⟩
  exact (mrTest_fst_eq_true_iff (by decide) _).mpr fun _ _ => hdraw.symm ▸ mrRound_341_4

end Sys2Proof.Machine
end

section
/-! The AES laws (R144, R160, R191): the S-boxes as permutations, the known answer, and a block through AES_ENC and
AES_DEC. -/

namespace Sys2Proof.Machine

/-! ### The S-boxes (R144) -/

/-- Settles O38: a left inverse on the finite set of bytes is a right inverse too. -/
theorem inverseSboxInvertsSbox : Obligations.InverseSboxInvertsSbox := by
  have hleft : Function.LeftInverse isbox sbox := isbox_sbox
  have hright : Function.RightInverse isbox sbox := hleft.rightInverse_of_card_le le_rfl
  exact fun x => ⟨hleft x, hright x⟩

/-! ### The known answer (R160), by the round trace V-TRC of `95_test_vectors.md` -/

/-- The round keys of the known answer (V-KX-1). -/
def knownRoundKeys : Vector AesState 11 :=
  keyExpansion (stateOfQuad ⟨0x00010203#32, 0x04050607#32, 0x08090A0B#32, 0x0C0D0E0F#32⟩)

/-- The State that `rounds` of the known answer make of the one held in `q`. -/
def afterRounds (rounds : List (Fin 11)) (q : Quad) : AesState :=
  rounds.foldl (fun s r => cipherRound s knownRoundKeys[r]) (stateOfQuad q)

/-- The trace after rounds 0, 3, 6 and 9. -/
def knownTrace0 : Quad := ⟨0x00102030#32, 0x40506070#32, 0x8090A0B0#32, 0xC0D0E0F0#32⟩

def knownTrace3 : Quad := ⟨0xFA636A28#32, 0x25B339C9#32, 0x40668A31#32, 0x57244D17#32⟩

def knownTrace6 : Quad := ⟨0xC62FE109#32, 0xF75EEDC3#32, 0xCC79395D#32, 0x84F9CF5D#32⟩

def knownTrace9 : Quad := ⟨0xBD6E7C3D#32, 0xF2B5779E#32, 0x0B61216E#32, 0x8B10B689#32⟩

theorem addRoundKey_known :
    addRoundKey (stateOfQuad ⟨0x00112233#32, 0x44556677#32, 0x8899AABB#32, 0xCCDDEEFF#32⟩) knownRoundKeys[0] =
      stateOfQuad knownTrace0 := by decide

theorem afterRounds_knownTrace0 : afterRounds [1, 2, 3] knownTrace0 = stateOfQuad knownTrace3 := by decide

theorem afterRounds_knownTrace3 : afterRounds [4, 5, 6] knownTrace3 = stateOfQuad knownTrace6 := by decide

theorem afterRounds_knownTrace6 : afterRounds [7, 8, 9] knownTrace6 = stateOfQuad knownTrace9 := by decide

theorem lastRound_known :
    quadOfState (addRoundKey (shiftRows (subBytes (stateOfQuad knownTrace9))) knownRoundKeys[10]) =
      ⟨0x69C4E0D8#32, 0x6A7B0430#32, 0xD8CDB780#32, 0x70B4C55A#32⟩ := by decide

theorem foldl_middleRounds {α : Type} (f : α → Fin 11 → α) (a : α) :
    middleRounds.foldl f a = [7, 8, 9].foldl f ([4, 5, 6].foldl f ([1, 2, 3].foldl f a)) := rfl

/-- The source's known answer (R160 (a)), three middle rounds at a time. -/
theorem cipher_knownAnswer :
    quadOfState (cipher (stateOfQuad ⟨0x00112233#32, 0x44556677#32, 0x8899AABB#32, 0xCCDDEEFF#32⟩) knownRoundKeys) =
      ⟨0x69C4E0D8#32, 0x6A7B0430#32, 0xD8CDB780#32, 0x70B4C55A#32⟩ := by
  have h03 := afterRounds_knownTrace0
  have h36 := afterRounds_knownTrace3
  have h69 := afterRounds_knownTrace6
  unfold afterRounds at h03 h36 h69
  rw [← lastRound_known]
  simp only [cipher, foldl_middleRounds, addRoundKey_known, h03, h36, h69]

/-- Settles O43: the known answer, and the inverse of each transform in turn. -/
theorem inverseCipherInvertsCipher : Obligations.InverseCipherInvertsCipher :=
  ⟨cipher_knownAnswer, invCipher_cipher⟩

/-! ### A block through the CORE (R191) -/

/-- What AES_DEC makes of the block that AES_ENC made. -/
theorem quadOfState_invCipher_cipher (q : Quad) (rk : Vector AesState 11) :
    quadOfState (invCipher (stateOfQuad (quadOfState (cipher (stateOfQuad q) rk))) rk) = q := by
  rw [stateOfQuad_quadOfState, invCipher_cipher, quadOfState_stateOfQuad]

/-- Settles O44: AES_KEYEXP sets `KEYVALID`, so both block commands run, under the same round keys. -/
theorem blockRoundTripThroughTheCore : Obligations.BlockRoundTripThroughTheCore :=
  fun s => ⟨_, _, _, aesKeyexpExpandsTheKey.2 s, (aesEncEncryptsTheBlock _).1 rfl, (aesDecDecryptsTheBlock _).1 rfl,
    rfl, quadOfState_invCipher_cipher s.core.din _⟩

end Sys2Proof.Machine
end
